-- ==== Sys2Proof/Word.lean ====
section
/-! DEFINITION. The word types of the cheap CORE (spec/00_scope.md R5, R7). Every value is unsigned. -/

namespace Sys2Proof

/-- Eight bits: a general register, a timer, a byte of memory, the immediate NN (R5, R92). -/
abbrev Byte := BitVec 8

/-- Sixteen bits: the index register, the program counter, a stack entry, an instruction word (R5). -/
abbrev Word := BitVec 16

/-- Four bits: the fields d1, X, Y and N of an instruction word, and a key number (R92, R218). -/
abbrev Nibble := BitVec 4

/-- Twelve bits: the address operand NNN (R92). -/
abbrev Addr := BitVec 12

end Sys2Proof
end

