-- ==== Sys2Proof/Machine/Flags.lean ====
section
/-! DEFINITION. The 8-bit arithmetic with a flag and the values that go to VF, each computed over the natural numbers and
narrowed at the end (spec/10_state.md R21, spec/41_load_alu.md R146 to R150, R153). -/

namespace Sys2Proof.Machine

/-- A flag as the 8-bit value 0 or 1 that x[0xF] receives (R21). -/
def flagByte (b : Bool) : Byte := if b then 1 else 0

/-- Sum modulo 256 (R141, R146). -/
def addBytes (a b : Byte) : Byte := BitVec.ofNat 8 ((a.toNat + b.toNat) % 256)

/-- Carry out of the 8-bit addition: the sum exceeds 255 (R146). -/
def carry (a b : Byte) : Bool := decide (a.toNat + b.toNat > 255)

/-- Difference modulo 256 (R147, R149). -/
def subBytes (a b : Byte) : Byte := BitVec.ofNat 8 ((a.toNat + 256 - b.toNat) % 256)

/-- No borrow in `a - b`: the minuend is at least the subtrahend (R147, R149; the flag is 1 when there is NO borrow). -/
def noBorrow (a b : Byte) : Bool := decide (a.toNat ≥ b.toNat)

/-- Logical shift right by one (R148). -/
def shiftRight (a : Byte) : Byte := BitVec.ofNat 8 (a.toNat / 2)

/-- The bit a shift right moves out: bit 0 (R148). -/
def lowBit (a : Byte) : Bool := a.getLsbD 0

/-- Shift left by one (R150). -/
def shiftLeft (a : Byte) : Byte := BitVec.ofNat 8 ((a.toNat * 2) % 256)

/-- The bit a shift left moves out: bit 7 (R150). -/
def highBit (a : Byte) : Bool := a.getLsbD 7

end Sys2Proof.Machine
end

