-- ==== Sys2Proof/Config.lean ====
section
/-! DEFINITION. What is fixed for the machine (spec/00_scope.md R5) and the one value it draws from outside
(spec/41_load_alu.md R152). The sizes of register files, of the stack, of the framebuffer and of the key state are in
the types of `Machine.State`. The FONT parameter (R6, R32) is `Machine.fontTable`. -/

namespace Sys2Proof.Config

/-- MEM_SIZE: 4096 bytes (R5). -/
def memSize : Nat := 4096

/-- LOAD_ADDR, also the reset value of the program counter (R5, R261). -/
def loadAddr : Nat := 0x200

/-- NKEYS: sixteen keys (R5, R28). -/
def numKeys : Nat := 16

/-- FREE VALUE. The random byte that the n-th execution of `CXNN` receives: "an input of the tick, a draw supplied from
outside the core" (R152, D14, U10: any value, no law). It has no body, so nothing can be proved of any of its values, and
what is proved of the machine holds for every sequence of bytes a host may supply. Log entry 2. -/
opaque randomByte : Nat → Byte

end Sys2Proof.Config
end

