-- ==== Sys2Proof/Syntax.lean ====
section
/-! DEFINITION. The instruction set, one constructor per row of spec/opcode_table.json in the table's order
(spec/30_encoding.md R96). Operands are the fields of R92 at their own widths, used exactly as extracted (R94). -/

namespace Sys2Proof

/-- The 35 instructions. `x`, `y` are the register fields X and Y, `nn` the immediate NN, `nnn` the address NNN, `n` the
row count N. `shr` and `shl` carry their Y field, which selects the same effect at every value (R94). -/
inductive Instr where
  /-- `0000` NOP, R120. -/
  | nop
  /-- `00E0` CLS, R180. -/
  | cls
  /-- `00EE` RET, R121. -/
  | ret
  /-- `1NNN` JP, R122. -/
  | jp (nnn : Addr)
  /-- `2NNN` CALL, R123. -/
  | call (nnn : Addr)
  /-- `3XNN` SEI, R125. -/
  | sei (x : Nibble) (nn : Byte)
  /-- `4XNN` SNEI, R126. -/
  | snei (x : Nibble) (nn : Byte)
  /-- `5XY0` SER, R127. -/
  | ser (x y : Nibble)
  /-- `6XNN` LDI, R140. -/
  | ldi (x : Nibble) (nn : Byte)
  /-- `7XNN` ADDI, R141. -/
  | addi (x : Nibble) (nn : Byte)
  /-- `8XY0` MOV, R142. -/
  | mov (x y : Nibble)
  /-- `8XY1` OR, R143. -/
  | or (x y : Nibble)
  /-- `8XY2` AND, R144. -/
  | and (x y : Nibble)
  /-- `8XY3` XOR, R145. -/
  | xor (x y : Nibble)
  /-- `8XY4` ADD, R146. -/
  | add (x y : Nibble)
  /-- `8XY5` SUB, R147. -/
  | sub (x y : Nibble)
  /-- `8XY6` SHR, R148. -/
  | shr (x y : Nibble)
  /-- `8XY7` SUBN, R149. -/
  | subn (x y : Nibble)
  /-- `8XYE` SHL, R150. -/
  | shl (x y : Nibble)
  /-- `9XY0` SNER, R128. -/
  | sner (x y : Nibble)
  /-- `ANNN` SETI, R160. -/
  | seti (nnn : Addr)
  /-- `BNNN` JPV0, R124. -/
  | jpv0 (nnn : Addr)
  /-- `CXNN` RND, R151. -/
  | rnd (x : Nibble) (nn : Byte)
  /-- `DXYN` DRW, R181. -/
  | drw (x y n : Nibble)
  /-- `EX9E` SKP, R190. -/
  | skp (x : Nibble)
  /-- `EXA1` SKNP, R191. -/
  | sknp (x : Nibble)
  /-- `FX07` GETDT, R193. -/
  | getdt (x : Nibble)
  /-- `FX0A` WKEY, R192. -/
  | wkey (x : Nibble)
  /-- `FX15` SETDT, R194. -/
  | setdt (x : Nibble)
  /-- `FX18` SETST, R195. -/
  | setst (x : Nibble)
  /-- `FX1E` ADDIX, R161. -/
  | addix (x : Nibble)
  /-- `FX29` GLYPH, R162. -/
  | glyph (x : Nibble)
  /-- `FX33` BCD, R163. -/
  | bcd (x : Nibble)
  /-- `FX55` STM, R164. -/
  | stm (x : Nibble)
  /-- `FX65` LDM, R165. -/
  | ldm (x : Nibble)
  deriving DecidableEq, Repr

end Sys2Proof
end

