-- ==== Sys2Proof/WellFormed.lean ====
section
/-! DEFINITION. Which instructions are well formed, and the checks of the assembler notation.

The operands of `Instr` are typed at the width of their field and every value of a field is legal (spec/30_encoding.md R94:
"every value is a valid index"), so every `Instr` is well formed; `Instr.wellFormed` states the ranges all the same. Where an
ill-formed operand can be written, in a line of assembler text, `Asm.Line.toInstr` checks it (R102, R103). -/

namespace Sys2Proof

/-- The ranges of an instruction's operands: X, Y, N below 16, NN below 256, NNN below 4096 (R92, R94). -/
def Instr.wellFormed : Instr → Bool
  | .nop | .cls | .ret => true
  | .jp nnn | .call nnn | .seti nnn | .jpv0 nnn => nnn.toNat < 4096
  | .sei x nn | .snei x nn | .ldi x nn | .addi x nn | .rnd x nn => x.toNat < 16 && nn.toNat < 256
  | .ser x y | .mov x y | .or x y | .and x y | .xor x y | .add x y | .sub x y | .shr x y | .subn x y | .shl x y
  | .sner x y => x.toNat < 16 && y.toNat < 16
  | .drw x y n => x.toNat < 16 && y.toNat < 16 && n.toNat < 16
  | .skp x | .sknp x | .getdt x | .wkey x | .setdt x | .setst x | .addix x | .glyph x | .bcd x | .stm x | .ldm x =>
    x.toNat < 16

namespace Asm

/-- The mnemonics of R103, one per row of R96. They are the spec's own names (D17). -/
inductive Mnemonic where
  | nop | cls | ret | jp | call | sei | snei | ser | ldi | addi | mov | or | and | xor | add | sub | shr | subn | shl
  | sner | seti | jpv0 | rnd | drw | skp | sknp | getdt | wkey | setdt | setst | addix | glyph | bcd | stm | ldm
  deriving DecidableEq, Repr

/-- An operand as it is written: `V` and a register number, or a number (R103). -/
inductive Operand where
  | v (register : Nat)
  | num (value : Nat)
  deriving DecidableEq, Repr

/-- One line of assembler text, labels already replaced by their addresses (R102). -/
structure Line where
  op : Mnemonic
  args : List Operand
  deriving DecidableEq, Repr

/-- A number that must fit in `w` bits. -/
def checked (w value : Nat) : Option (BitVec w) :=
  if value < 2 ^ w then some (BitVec.ofNat w value) else none

/-- Operand form `nnn`: one 12-bit address. -/
def formA (f : Addr → Instr) : List Operand → Option Instr
  | [.num a] => (checked 12 a).map f
  | _ => none

/-- Operand form `Vx, nn`: a register and an 8-bit immediate. -/
def formI (f : Nibble → Byte → Instr) : List Operand → Option Instr
  | [.v x, .num k] => (checked 4 x).bind fun x' => (checked 8 k).map (f x')
  | _ => none

/-- Operand form `Vx, Vy`: two registers. -/
def formR (f : Nibble → Nibble → Instr) : List Operand → Option Instr
  | [.v x, .v y] => (checked 4 x).bind fun x' => (checked 4 y).map (f x')
  | _ => none

/-- Operand form of SHR and SHL: `Vx`, optionally `, Vy`; Y is 0 when omitted (R103). -/
def formShift (f : Nibble → Nibble → Instr) : List Operand → Option Instr
  | [.v x] => formR f [.v x, .v 0]
  | args => formR f args

/-- Operand form `Vx`: one register. -/
def formK (f : Nibble → Instr) : List Operand → Option Instr
  | [.v x] => (checked 4 x).map f
  | _ => none

/-- Operand form `Vx, Vy, n`: two registers and a 4-bit count. -/
def formD : List Operand → Option Instr
  | [.v x, .v y, .num n] =>
    (checked 4 x).bind fun x' => (checked 4 y).bind fun y' => (checked 4 n).map (Instr.drw x' y')
  | _ => none

/-- No operands. -/
def formZ (i : Instr) : List Operand → Option Instr
  | [] => some i
  | _ => none

/-- The instruction a line stands for, `none` where its operands are of the wrong form or out of range (R103). -/
def Line.toInstr (l : Line) : Option Instr :=
  match l.op with
  | .nop => formZ .nop l.args
  | .cls => formZ .cls l.args
  | .ret => formZ .ret l.args
  | .jp => formA .jp l.args
  | .call => formA .call l.args
  | .sei => formI .sei l.args
  | .snei => formI .snei l.args
  | .ser => formR .ser l.args
  | .ldi => formI .ldi l.args
  | .addi => formI .addi l.args
  | .mov => formR .mov l.args
  | .or => formR .or l.args
  | .and => formR .and l.args
  | .xor => formR .xor l.args
  | .add => formR .add l.args
  | .sub => formR .sub l.args
  | .shr => formShift .shr l.args
  | .subn => formR .subn l.args
  | .shl => formShift .shl l.args
  | .sner => formR .sner l.args
  | .seti => formA .seti l.args
  | .jpv0 => formA .jpv0 l.args
  | .rnd => formI .rnd l.args
  | .drw => formD l.args
  | .skp => formK .skp l.args
  | .sknp => formK .sknp l.args
  | .getdt => formK .getdt l.args
  | .wkey => formK .wkey l.args
  | .setdt => formK .setdt l.args
  | .setst => formK .setst l.args
  | .addix => formK .addix l.args
  | .glyph => formK .glyph l.args
  | .bcd => formK .bcd l.args
  | .stm => formK .stm l.args
  | .ldm => formK .ldm l.args

/-- A well-formed line is one that stands for an instruction. -/
def Line.wellFormed (l : Line) : Bool := l.toInstr.isSome

end Asm

end Sys2Proof
end

