-- ==== Sys2Proof/Decode.lean ====
section
/-! DEFINITION. The decoder, the opcode map as mask and match pairs, and the encoder (spec/30_encoding.md R90 to R100). -/

namespace Sys2Proof

/-! The fields of an instruction word (R92). -/

/-- d1, bits 15:12: selects the group. -/
def fieldD1 (w : Word) : Nibble := w.extractLsb' 12 4

/-- X, bits 11:8. -/
def fieldX (w : Word) : Nibble := w.extractLsb' 8 4

/-- Y, bits 7:4. -/
def fieldY (w : Word) : Nibble := w.extractLsb' 4 4

/-- N, bits 3:0. -/
def fieldN (w : Word) : Nibble := w.extractLsb' 0 4

/-- NN, bits 7:0. -/
def fieldNN (w : Word) : Byte := w.extractLsb' 0 8

/-- NNN, bits 11:0. -/
def fieldNNN (w : Word) : Addr := w.extractLsb' 0 12

/-- Group d1 = 0: three words and no other (R95, R97). -/
def decodeGroup0 (w : Word) : Option Instr :=
  if w = 0x0000#16 then some .nop
  else if w = 0x00E0#16 then some .cls
  else if w = 0x00EE#16 then some .ret
  else none

/-- Group d1 = 8: d4 selects the operation (R95). -/
def decodeGroup8 (w : Word) : Option Instr :=
  match (fieldN w).toNat with
  | 0x0 => some (.mov (fieldX w) (fieldY w))
  | 0x1 => some (.or (fieldX w) (fieldY w))
  | 0x2 => some (.and (fieldX w) (fieldY w))
  | 0x3 => some (.xor (fieldX w) (fieldY w))
  | 0x4 => some (.add (fieldX w) (fieldY w))
  | 0x5 => some (.sub (fieldX w) (fieldY w))
  | 0x6 => some (.shr (fieldX w) (fieldY w))
  | 0x7 => some (.subn (fieldX w) (fieldY w))
  | 0xE => some (.shl (fieldX w) (fieldY w))
  | _ => none

/-- Group d1 = E: the low byte selects the operation (R95). -/
def decodeGroupE (w : Word) : Option Instr :=
  match (fieldNN w).toNat with
  | 0x9E => some (.skp (fieldX w))
  | 0xA1 => some (.sknp (fieldX w))
  | _ => none

/-- Group d1 = F: the low byte selects the operation (R95). -/
def decodeGroupF (w : Word) : Option Instr :=
  match (fieldNN w).toNat with
  | 0x07 => some (.getdt (fieldX w))
  | 0x0A => some (.wkey (fieldX w))
  | 0x15 => some (.setdt (fieldX w))
  | 0x18 => some (.setst (fieldX w))
  | 0x1E => some (.addix (fieldX w))
  | 0x29 => some (.glyph (fieldX w))
  | 0x33 => some (.bcd (fieldX w))
  | 0x55 => some (.stm (fieldX w))
  | 0x65 => some (.ldm (fieldX w))
  | _ => none

/-- The decode phase as a total function on all 65536 words; `none` is an unknown pattern (R95, R97). -/
def decode (w : Word) : Option Instr :=
  match (fieldD1 w).toNat with
  | 0x0 => decodeGroup0 w
  | 0x1 => some (.jp (fieldNNN w))
  | 0x2 => some (.call (fieldNNN w))
  | 0x3 => some (.sei (fieldX w) (fieldNN w))
  | 0x4 => some (.snei (fieldX w) (fieldNN w))
  | 0x5 => if fieldN w = 0#4 then some (.ser (fieldX w) (fieldY w)) else none
  | 0x6 => some (.ldi (fieldX w) (fieldNN w))
  | 0x7 => some (.addi (fieldX w) (fieldNN w))
  | 0x8 => decodeGroup8 w
  | 0x9 => if fieldN w = 0#4 then some (.sner (fieldX w) (fieldY w)) else none
  | 0xA => some (.seti (fieldNNN w))
  | 0xB => some (.jpv0 (fieldNNN w))
  | 0xC => some (.rnd (fieldX w) (fieldNN w))
  | 0xD => some (.drw (fieldX w) (fieldY w) (fieldN w))
  | 0xE => decodeGroupE w
  | 0xF => decodeGroupF w
  | _ => none

/-- Why a sequence of bytes gives no instruction. -/
inductive DecodeReject where
  /-- Fewer than the two bytes of an instruction (R91). -/
  | truncated
  /-- The word matches no row of the opcode map (R97). -/
  | unknownPattern (w : Word)
  deriving DecidableEq, Repr

/-- An instruction word in memory: big-endian, high byte first (spec/20_memory.md R62). -/
def wordOfBytes (b0 b1 : Byte) : Word := b0 ++ b1

/-- The high byte of a word, the one at the lower address (R62). -/
def highByte (w : Word) : Byte := w.extractLsb' 8 8

/-- The low byte of a word, the one at the higher address (R62). -/
def lowByte (w : Word) : Byte := w.extractLsb' 0 8

/-- Decoding from bytes, total: the instruction and the bytes after it, or the reason there is none. -/
def decodeBytes : List Byte → Except DecodeReject (Instr × List Byte)
  | b0 :: b1 :: rest =>
    match decode (wordOfBytes b0 b1) with
    | some i => .ok (i, rest)
    | none => .error (.unknownPattern (wordOfBytes b0 b1))
  | _ => .error .truncated

/-! The encoder, from the column "hex" of R96 and the layouts of R93. -/

/-- Format A: d1, NNN. -/
def formatA (d1 : Nibble) (nnn : Addr) : Word := d1 ++ nnn

/-- Format I: d1, X, NN. -/
def formatI (d1 x : Nibble) (nn : Byte) : Word := d1 ++ (x ++ nn)

/-- Formats R and D: d1, X, Y, d4. -/
def formatR (d1 x y d4 : Nibble) : Word := d1 ++ (x ++ (y ++ d4))

/-- The word of an instruction (R96). -/
def encode : Instr → Word
  | .nop => 0x0000#16
  | .cls => 0x00E0#16
  | .ret => 0x00EE#16
  | .jp nnn => formatA 0x1#4 nnn
  | .call nnn => formatA 0x2#4 nnn
  | .sei x nn => formatI 0x3#4 x nn
  | .snei x nn => formatI 0x4#4 x nn
  | .ser x y => formatR 0x5#4 x y 0x0#4
  | .ldi x nn => formatI 0x6#4 x nn
  | .addi x nn => formatI 0x7#4 x nn
  | .mov x y => formatR 0x8#4 x y 0x0#4
  | .or x y => formatR 0x8#4 x y 0x1#4
  | .and x y => formatR 0x8#4 x y 0x2#4
  | .xor x y => formatR 0x8#4 x y 0x3#4
  | .add x y => formatR 0x8#4 x y 0x4#4
  | .sub x y => formatR 0x8#4 x y 0x5#4
  | .shr x y => formatR 0x8#4 x y 0x6#4
  | .subn x y => formatR 0x8#4 x y 0x7#4
  | .shl x y => formatR 0x8#4 x y 0xE#4
  | .sner x y => formatR 0x9#4 x y 0x0#4
  | .seti nnn => formatA 0xA#4 nnn
  | .jpv0 nnn => formatA 0xB#4 nnn
  | .rnd x nn => formatI 0xC#4 x nn
  | .drw x y n => formatR 0xD#4 x y n
  | .skp x => formatI 0xE#4 x 0x9E#8
  | .sknp x => formatI 0xE#4 x 0xA1#8
  | .getdt x => formatI 0xF#4 x 0x07#8
  | .wkey x => formatI 0xF#4 x 0x0A#8
  | .setdt x => formatI 0xF#4 x 0x15#8
  | .setst x => formatI 0xF#4 x 0x18#8
  | .addix x => formatI 0xF#4 x 0x1E#8
  | .glyph x => formatI 0xF#4 x 0x29#8
  | .bcd x => formatI 0xF#4 x 0x33#8
  | .stm x => formatI 0xF#4 x 0x55#8
  | .ldm x => formatI 0xF#4 x 0x65#8

/-- An instruction's two bytes as they lie in memory (R62, R91). -/
def encodeBytes (i : Instr) : List Byte := [highByte (encode i), lowByte (encode i)]

/-- The opcode map of R96 as pairs (mask, match), in its order: a word `w` is the row's instruction exactly when
`w AND mask = match`. -/
def opcodeRows : List (Word × Word) :=
  [(0xFFFF, 0x0000), (0xFFFF, 0x00E0), (0xFFFF, 0x00EE), (0xF000, 0x1000), (0xF000, 0x2000),
   (0xF000, 0x3000), (0xF000, 0x4000), (0xF00F, 0x5000), (0xF000, 0x6000), (0xF000, 0x7000)] ++
  [(0xF00F, 0x8000), (0xF00F, 0x8001), (0xF00F, 0x8002), (0xF00F, 0x8003), (0xF00F, 0x8004),
   (0xF00F, 0x8005), (0xF00F, 0x8006), (0xF00F, 0x8007), (0xF00F, 0x800E), (0xF00F, 0x9000)] ++
  [(0xF000, 0xA000), (0xF000, 0xB000), (0xF000, 0xC000), (0xF000, 0xD000), (0xF0FF, 0xE09E),
   (0xF0FF, 0xE0A1), (0xF0FF, 0xF007), (0xF0FF, 0xF00A), (0xF0FF, 0xF015), (0xF0FF, 0xF018),
   (0xF0FF, 0xF01E), (0xF0FF, 0xF029), (0xF0FF, 0xF033), (0xF0FF, 0xF055), (0xF0FF, 0xF065)]

/-- The row of R96 that is an instruction's own, as (mask, match). -/
def Instr.row : Instr → Word × Word
  | .nop => (0xFFFF, 0x0000)
  | .cls => (0xFFFF, 0x00E0)
  | .ret => (0xFFFF, 0x00EE)
  | .jp _ => (0xF000, 0x1000)
  | .call _ => (0xF000, 0x2000)
  | .sei _ _ => (0xF000, 0x3000)
  | .snei _ _ => (0xF000, 0x4000)
  | .ser _ _ => (0xF00F, 0x5000)
  | .ldi _ _ => (0xF000, 0x6000)
  | .addi _ _ => (0xF000, 0x7000)
  | .mov _ _ => (0xF00F, 0x8000)
  | .or _ _ => (0xF00F, 0x8001)
  | .and _ _ => (0xF00F, 0x8002)
  | .xor _ _ => (0xF00F, 0x8003)
  | .add _ _ => (0xF00F, 0x8004)
  | .sub _ _ => (0xF00F, 0x8005)
  | .shr _ _ => (0xF00F, 0x8006)
  | .subn _ _ => (0xF00F, 0x8007)
  | .shl _ _ => (0xF00F, 0x800E)
  | .sner _ _ => (0xF00F, 0x9000)
  | .seti _ => (0xF000, 0xA000)
  | .jpv0 _ => (0xF000, 0xB000)
  | .rnd _ _ => (0xF000, 0xC000)
  | .drw _ _ _ => (0xF000, 0xD000)
  | .skp _ => (0xF0FF, 0xE09E)
  | .sknp _ => (0xF0FF, 0xE0A1)
  | .getdt _ => (0xF0FF, 0xF007)
  | .wkey _ => (0xF0FF, 0xF00A)
  | .setdt _ => (0xF0FF, 0xF015)
  | .setst _ => (0xF0FF, 0xF018)
  | .addix _ => (0xF0FF, 0xF01E)
  | .glyph _ => (0xF0FF, 0xF029)
  | .bcd _ => (0xF0FF, 0xF033)
  | .stm _ => (0xF0FF, 0xF055)
  | .ldm _ => (0xF0FF, 0xF065)

/-- The word whose bits are the low `nbits` bits of `w`, every bit above them 0 (an instruction is one 16-bit word, R91). -/
def tableWord (nbits w : Nat) : Word := BitVec.ofNat 16 (w % 2 ^ nbits)

/-- The instruction the decoder reads from the bits `w` of an opcode-table row: the word is laid out big-endian, as memory
holds it, and the bytes are decoded. -/
def decodeTableWord (nbits w : Nat) : Option Instr :=
  match decodeBytes [highByte (tableWord nbits w), lowByte (tableWord nbits w)] with
  | .ok (i, _) => some i
  | .error _ => none

end Sys2Proof
end

