-- ==== Sys2Proof/Machine/State.lean ====
section
/-! DEFINITION. The machine state of spec/10_state.md as plain data, the fault records of spec/60_exceptions.md R230, and
the state after reset (10_state.md R33). -/

namespace Sys2Proof.Machine

/-- Which end of the call stack a `StackFault` met (R230, R233). -/
inductive StackEnd where
  /-- A push with sixteen entries held. -/
  | overflow
  /-- A pop with no entry held. -/
  | underflow
  deriving DecidableEq, Repr

/-- A fault record: kind and payload (R230). The first three and the fifth are latched in `State.fault` by the TICK that
meets them, as a NEXT state (R241: the latch is set and the core is halted); `loadError` is a LOAD's result and is never
latched (R234). No step answers `Host.Outcome.fault`: the spec describes what taking a fault does, so the model does it. -/
inductive Fault where
  /-- Latched by the fetch, DRW, BCD, STM and LDM on an address of 4096 or more; `address` is the lowest one out of bounds
  (R231). Safe: the access is not performed. -/
  | memoryFault (address : Nat)
  /-- Latched by the decode phase on a word that matches no row of the opcode map (R232). Safe: nothing is executed. -/
  | decodeError (opcode : Word)
  /-- Latched by CALL on a full stack and by RET on an empty one (R233). Safe: nothing is pushed or popped. -/
  | stackFault (which : StackEnd)
  /-- The result of a LOAD of `length` bytes that do not fit; never latched (R234). Safe: nothing is written. -/
  | loadError (length : Nat)
  /-- Latched by SKP and SKNP when the register holds 16 or more (R235, the spec's own kind). Safe: no key is read. -/
  | keyIndexFault (key : Byte)
  deriving DecidableEq, Repr

/-- Why a step could have no meaning. Every constructor of `Instr` has one, so no step refuses. -/
inductive Refusal where
  /-- An arm of `exec` with no meaning yet; raised by no arm. Safe: it stops the run. -/
  | notModelled (mnemonic : String)
  deriving DecidableEq, Repr

/-- Main memory as (address, byte) pairs in one canonical form, `Memory.wf` (Machine/Memory.lean). -/
abbrev Memory := List Host.Cell

/-- The framebuffer `fb[y][x]`: 32 rows of 64 cells, `true` is on (R27). -/
abbrev Framebuffer := Vector (Vector Bool 64) 32

/-- The twelve items of state of 00_scope.md R8 and 10_state.md, and the model's own counter of random draws. -/
structure State where
  /-- The general registers x[0] to x[15]; x[15] is also the flag VF (R20, R21). -/
  regs : Vector Byte 16
  /-- The index register I (R22). -/
  index : Word
  /-- The program counter (R23). -/
  pc : Word
  /-- The call stack's sixteen return addresses (R24). -/
  stack : Vector Word 16
  /-- The stack pointer: how many return addresses are held, 0 to 16 (R24). -/
  sp : Fin 17
  /-- The delay timer (R25). -/
  dt : Byte
  /-- The sound timer (R25). -/
  st : Byte
  /-- The 4096 bytes of main memory (R26). -/
  mem : Memory
  /-- The framebuffer (R27). -/
  fb : Framebuffer
  /-- The key state: `true` is pressed (R28). -/
  keys : Vector Bool 16
  /-- The most recently fetched instruction word (R29). -/
  last : Word
  /-- The fault latch; the core is halted while it is not `none` (R31). -/
  fault : Option Fault
  /-- DESIGN CHOICE, the model's own field: how many random bytes have been drawn, the index of the next one in
  `Config.randomByte` (R152; log entry 2). -/
  draws : Nat
  deriving DecidableEq, Repr

/-- The state after power-on and after `RESET` (R33, R260). Memory lists nothing: an unlisted address reads as its reset
content (`Memory.unlisted`). -/
def State.reset : State where
  regs := Vector.replicate 16 0
  index := 0
  pc := BitVec.ofNat 16 Config.loadAddr
  stack := Vector.replicate 16 0
  sp := 0
  dt := 0
  st := 0
  mem := []
  fb := Vector.replicate 32 (Vector.replicate 64 false)
  keys := Vector.replicate 16 false
  last := 0
  fault := none
  draws := 0

end Sys2Proof.Machine
end

