-- ==== Sys2Proof/Machine/Operands.lean ====
section
/-! DEFINITION. The operand forms: zero extension, the index-plus-offset address, glyph addresses, decimal digits, and the
coordinates and bits of a sprite (spec/30_encoding.md R94, spec/20_memory.md R65, R68, spec/42_index_memory.md, R181). -/

namespace Sys2Proof.Machine

/-- `zext_16(NNN)` (R94). -/
def addrWord (nnn : Addr) : Word := nnn.setWidth 16

/-- `zext_16` of a byte (R94). -/
def byteWord (v : Byte) : Word := v.setWidth 16

/-- The target of a computed jump, NNN plus a byte: never masked, 0x10FE at most (R124, D18). -/
def jumpSum (nnn : Addr) (v : Byte) : Word := addrWord nnn + byteWord v

/-- The effective address `I + k`, an unbounded natural number (R65, D7). -/
def effAddr (i : Word) (k : Nat) : Nat := i.toNat + k

/-- The index register plus a byte, modulo 65536 (R161, D8). -/
def indexAdd (i : Word) (v : Byte) : Word := BitVec.ofNat 16 ((i.toNat + v.toNat) % 65536)

/-- `5 * x[X]`, exact in 16 bits (R162). -/
def glyphAddr (v : Byte) : Word := BitVec.ofNat 16 (5 * v.toNat)

/-- The hundreds, tens and ones of a byte (R163). -/
def decimalDigits (v : Byte) : List Byte :=
  [BitVec.ofNat 8 (v.toNat / 100), BitVec.ofNat 8 (v.toNat / 10 % 10), BitVec.ofNat 8 (v.toNat % 10)]

/-- The bounds check of `len` bytes from `base`, made before the first of them is touched: the fault carries the lowest
address out of bounds, `max(base, 4096)` (R64, R231, D5, D6). No bytes, no fault (R181, N = 0). -/
def rangeFault (base len : Nat) : Option Fault :=
  if 0 < len ∧ Config.memSize ≤ base + len - 1 then some (.memoryFault (max base Config.memSize)) else none

/-- The bit of a sprite byte that is a column: bit 7 is column 0. PRESUMED by R181 itself, from general knowledge (D10; log
entry 3). -/
def spriteBit (byte : Byte) (column : Nat) : Bool := byte.getLsbD (7 - column)

/-- The framebuffer column of a sprite's column, modulo 64 (R68, R181). -/
def pixelX (vx : Byte) (column : Nat) : Fin 64 := Fin.ofNat 64 (vx.toNat + column)

/-- The framebuffer row of a sprite's row, modulo 32 (R68, R181). -/
def pixelY (vy : Byte) (row : Nat) : Fin 32 := Fin.ofNat 32 (vy.toNat + row)

/-- `fb[y][x]`. -/
def Framebuffer.get (fb : Framebuffer) (y : Fin 32) (x : Fin 64) : Bool := fb[y][x]

/-- XOR one cell with on (R181). -/
def Framebuffer.toggle (fb : Framebuffer) (y : Fin 32) (x : Fin 64) : Framebuffer :=
  fb.set y (fb[y].set x (!(fb[y][x])))

/-- Every cell off (R180). -/
def Framebuffer.blank : Framebuffer := Vector.replicate 32 (Vector.replicate 64 false)

/-- A draw in progress: the framebuffer and whether a cell went from on to off so far (R181). -/
structure Canvas where
  fb : Framebuffer
  collision : Bool
  deriving DecidableEq, Repr

/-- One set bit of a sprite: note a collision, toggle the cell (R181). -/
def drawPixel (c : Canvas) (y : Fin 32) (x : Fin 64) : Canvas :=
  { fb := c.fb.toggle y x, collision := c.collision || c.fb.get y x }

/-- The columns from `column` on of one sprite row, `k` of them, ascending (R181). -/
def drawColumns (vx vy byte : Byte) (row : Nat) : (k column : Nat) → Canvas → Canvas
  | 0, _, c => c
  | k + 1, column, c =>
    drawColumns vx vy byte row k (column + 1)
      (if spriteBit byte column then drawPixel c (pixelY vy row) (pixelX vx column) else c)

/-- The sprite rows from `row` on, one byte each, ascending; eight columns a row (R181). -/
def drawRows (vx vy : Byte) : (row : Nat) → List Byte → Canvas → Canvas
  | _, [], c => c
  | row, byte :: bytes, c => drawRows vx vy (row + 1) bytes (drawColumns vx vy byte row 8 0 c)

/-- The whole draw onto a framebuffer (R181). -/
def drawSprite (fb : Framebuffer) (vx vy : Byte) (bytes : List Byte) : Canvas :=
  drawRows vx vy 0 bytes { fb := fb, collision := false }

end Sys2Proof.Machine
end

