-- ==== Sys2Proof/Machine/Ops.lean ====
section
/-! DEFINITION. The named operations on the state: registers, memory, the call stack, keys, skips, taking a fault, the
random byte and the fetch (spec/00_scope.md R9, spec/10_state.md, spec/30_encoding.md R90, spec/60_exceptions.md R236,
R241). -/

namespace Sys2Proof.Machine

/-- What a step or a meaning answers. -/
abbrev Result := Host.Outcome State Fault Refusal

/-! Plain updates of one item. -/

/-- The register read `x[i]` (R20). -/
def State.reg (s : State) (x : Nibble) : Byte := s.regs[x.toNat]'(x.isLt)

/-- The register write `x[i] <- v` (R20). No register discards a write. -/
def State.setReg (s : State) (x : Nibble) (v : Byte) : State := { s with regs := s.regs.set x.toNat v x.isLt }

/-- Write the flag, register 0xF (R21). -/
def State.setFlag (s : State) (b : Bool) : State := s.setReg 0xF#4 (flagByte b)

/-- `I <- v` (R22). -/
def State.setIndex (s : State) (v : Word) : State := { s with index := v }

/-- `pc <- target`; no target is checked when it is written (R23, R63). -/
def State.setPc (s : State) (v : Word) : State := { s with pc := v }

/-- `dt <- v` (R25). -/
def State.setDelay (s : State) (v : Byte) : State := { s with dt := v }

/-- `st <- v` (R25). -/
def State.setSound (s : State) (v : Byte) : State := { s with st := v }

/-- Replace the framebuffer (R27). -/
def State.setFb (s : State) (fb : Framebuffer) : State := { s with fb := fb }

/-- Write one key, as the host's SET_KEY does (R28, R218). -/
def State.setKey (s : State) (k : Nibble) (pressed : Bool) : State :=
  { s with keys := s.keys.set k.toNat pressed k.isLt }

/-- Write bytes to memory at ascending addresses; the range has been checked before (R64). -/
def State.store (s : State) (a : Nat) (bytes : List Byte) : State := { s with mem := s.mem.writeBytes a bytes }

/-- Record a fault in the latch, which halts the core (R31). -/
def State.latch (s : State) (f : Fault) : State := { s with fault := some f }

/-- The core is halted while the latch holds a record (R31, R222). -/
def State.halted (s : State) : Bool := s.fault.isSome

/-! Taking a fault. -/

/-- Taking a fault: the latch is set to the record, the core is halted, and nothing else changes (R236, R241). The caller
gives the state with the fetch's effects and none of the instruction's. There is no return from a fault beside it: no
instruction and no command resumes a halted core, only RESET leaves it (R242, `State.afterReset`). -/
def raise (f : Fault) (s : State) : Result := .next (s.latch f)

/-- Take the fault of an operation that failed, or go on with the state it gave. -/
def settle (s : State) : Except Fault State → Result
  | .ok t => .next t
  | .error f => raise f s

/-- The numeric code of a fault record (R230, D4). -/
def faultCode : Fault → Nat
  | .memoryFault _ => 1
  | .decodeError _ => 2
  | .stackFault _ => 3
  | .loadError _ => 4
  | .keyIndexFault _ => 5

/-! Memory accesses. -/

/-- `MemRead(a, 1)` with its bounds check (R9, R64). -/
def State.memRead (s : State) (a : Nat) : Except Fault Byte :=
  if a ≥ Config.memSize then .error (.memoryFault a) else .ok (s.mem.read a)

/-- The registers x[0] to x[X], in order: what STM stores (R164). -/
def State.regRun (s : State) (x : Nibble) : List Byte := s.regs.toList.take (x.toNat + 1)

/-- Load x[0] to x[X] from memory at ascending addresses; registers above X stay (R165). -/
def State.loadRun (s : State) (x : Nibble) (a : Nat) : State :=
  { s with regs := Vector.ofFn fun i : Fin 16 => if i.val ≤ x.toNat then s.mem.read (a + i.val) else s.regs[i] }

/-! The call stack. -/

/-- `Push(v)` (R9, R24). -/
def State.push (s : State) (v : Word) : Except Fault State :=
  if h : s.sp.val < 16 then
    .ok { s with stack := s.stack.set s.sp.val v h, sp := ⟨s.sp.val + 1, Nat.succ_lt_succ h⟩ }
  else .error (.stackFault .overflow)

/-- `Pop()`: the value and the state with `sp` lowered; the slot keeps its contents (R9, R24). -/
def State.pop (s : State) : Except Fault (Word × State) :=
  if h : 0 < s.sp.val then
    .ok (s.stack[s.sp.val - 1]'(by have := s.sp.isLt; omega),
      { s with sp := ⟨s.sp.val - 1, by have := s.sp.isLt; omega⟩ })
  else .error (.stackFault .underflow)

/-! Skips, keys, the random byte. -/

/-- A skip: add 2 to the already advanced program counter when the condition holds (R125 to R128). -/
def State.skipIf (s : State) (b : Bool) : State := if b then s.setPc (s.pc + 2) else s

/-- Whether key `k` is down; `k` is below 16 where this is used. -/
def State.keyDown (s : State) (k : Nat) : Bool := s.keys[k]?.getD false

/-- `Key(k)` with the full 8-bit index (R9, R69). -/
def State.key (s : State) (k : Byte) : Except Fault Bool :=
  if k.toNat ≥ Config.numKeys then .error (.keyIndexFault k) else .ok (s.keyDown k.toNat)

/-- The smallest pressed key index, the first an ascending scan meets (R192, D13). -/
def State.lowestKey (s : State) : Option Nat := (List.range Config.numKeys).find? s.keyDown

/-- `Rnd()`: the random byte of this execution (R152). -/
def State.randomByte (s : State) : Byte := Config.randomByte s.draws

/-- One random byte has been consumed. -/
def State.countDraw (s : State) : State := { s with draws := s.draws + 1 }

/-! The fetch. -/

/-- The state with the fetch's effects: `pc` advanced by 2 and the word recorded in `last` (R90). -/
def State.fetched (s : State) (w : Word) : State := { s with pc := s.pc + 2, last := w }

/-- The word that lies at an address, big-endian (R62). -/
def State.wordAt (s : State) (a : Nat) : Word := wordOfBytes (s.mem.read a) (s.mem.read (a + 1))

/-- The fetch phase: two byte reads, big-endian; a fault on either leaves everything as it was (R90, R236). -/
def State.fetch (s : State) : Except Fault (Word × State) :=
  match s.memRead s.pc.toNat with
  | .error f => .error f
  | .ok b0 =>
    match s.memRead (s.pc.toNat + 1) with
    | .error f => .error f
    | .ok b1 => .ok (wordOfBytes b0 b1, s.fetched (wordOfBytes b0 b1))

/-- The state in which the next fetch reads `w`: `w` stored big-endian at the program counter, the core not halted, and the
program counter at LOAD_ADDR where it was out of the range a fetch can read. -/
def State.withWord (s : State) (w : Word) : State :=
  let pc := if s.pc.toNat + 1 < Config.memSize then s.pc else BitVec.ofNat 16 Config.loadAddr
  { s with pc := pc, fault := none, mem := s.mem.writeBytes pc.toNat [highByte w, lowByte w] }

end Sys2Proof.Machine
end

