-- ==== Sys2Proof/Machine/ControlFlow.lean ====
section
/-! DEFINITION. The no-op and the control transfers (spec/40_control_flow.md). Each meaning is the execute phase: `s.pc` is
already the address of the following instruction (R23, R90). -/

namespace Sys2Proof.Machine

/-- `0000` NOP: nothing (R120). -/
def execNop (s : State) : Result := .next s

/-- `00EE` RET: `pc <- Pop()` (R121). -/
def execRet (s : State) : Result :=
  settle s (s.pop.map fun (target, t) => t.setPc target)

/-- `1NNN` JP: `pc <- zext_16(NNN)` (R122). -/
def execJp (nnn : Addr) (s : State) : Result := .next (s.setPc (addrWord nnn))

/-- `2NNN` CALL: push the advanced program counter, then `pc <- zext_16(NNN)` (R123). -/
def execCall (nnn : Addr) (s : State) : Result :=
  settle s ((s.push s.pc).map fun t => t.setPc (addrWord nnn))

/-- `3XNN` SEI: skip if x[X] = NN (R125). -/
def execSei (x : Nibble) (nn : Byte) (s : State) : Result := .next (s.skipIf (s.reg x == nn))

/-- `4XNN` SNEI: skip if x[X] ≠ NN (R126). -/
def execSnei (x : Nibble) (nn : Byte) (s : State) : Result := .next (s.skipIf (s.reg x != nn))

/-- `5XY0` SER: skip if x[X] = x[Y] (R127). -/
def execSer (x y : Nibble) (s : State) : Result := .next (s.skipIf (s.reg x == s.reg y))

/-- `9XY0` SNER: skip if x[X] ≠ x[Y] (R128). -/
def execSner (x y : Nibble) (s : State) : Result := .next (s.skipIf (s.reg x != s.reg y))

/-- `BNNN` JPV0: `pc <- NNN + x[0]`, not masked; the addend is always x[0] (R124). -/
def execJpv0 (nnn : Addr) (s : State) : Result := .next (s.setPc (jumpSum nnn (s.reg 0#4)))

end Sys2Proof.Machine
end

