-- ==== Sys2Proof/Machine/Display.lean ====
section
/-! DEFINITION. The framebuffer instructions (spec/43_display.md). -/

namespace Sys2Proof.Machine

/-- `00E0` CLS: every cell off, no flag (R180). -/
def execCls (s : State) : Result := .next (s.setFb Framebuffer.blank)

/-- The sprite's bytes: N bytes from I (R181). -/
def State.sprite (s : State) (n : Nibble) : List Byte := s.mem.readBytes (effAddr s.index 0) n.toNat

/-- The draw of `DXYN`: coordinates sampled on entry (R181, D12). -/
def State.draw (s : State) (x y n : Nibble) : Canvas := drawSprite s.fb (s.reg x) (s.reg y) (s.sprite n)

/-- `DXYN` DRW: the range is checked, the sprite drawn by XOR, and VF written last with the collision (R181). -/
def execDrw (x y n : Nibble) (s : State) : Result :=
  match rangeFault (effAddr s.index 0) n.toNat with
  | some f => raise f s
  | none => .next ((s.setFb (s.draw x y n).fb).setFlag (s.draw x y n).collision)

end Sys2Proof.Machine
end

