-- ==== Sys2Proof/Machine/IndexMemory.lean ====
section
/-! DEFINITION. The index register and the memory transfers (spec/42_index_memory.md). I is changed by none of the
transfers; the whole range is checked before the first byte or register is written (R64, R236). -/

namespace Sys2Proof.Machine

/-- `ANNN` SETI: `I <- zext_16(NNN)` (R160). -/
def execSeti (nnn : Addr) (s : State) : Result := .next (s.setIndex (addrWord nnn))

/-- `FX1E` ADDIX: `I <- (I + x[X]) mod 65536`, no flag (R161). -/
def execAddix (x : Nibble) (s : State) : Result := .next (s.setIndex (indexAdd s.index (s.reg x)))

/-- `FX29` GLYPH: `I <- 5 * x[X]` (R162). -/
def execGlyph (x : Nibble) (s : State) : Result := .next (s.setIndex (glyphAddr (s.reg x)))

/-- A transfer of `len` bytes at I: the fault of its range, or the state it gives (R64, R236). -/
def transfer (len : Nat) (t s : State) : Result :=
  match rangeFault (effAddr s.index 0) len with
  | some f => raise f s
  | none => .next t

/-- `FX33` BCD: three decimal digits at I, I + 1, I + 2 (R163). -/
def execBcd (x : Nibble) (s : State) : Result :=
  transfer 3 (s.store (effAddr s.index 0) (decimalDigits (s.reg x))) s

/-- `FX55` STM: x[0] to x[X] at I to I + X (R164). -/
def execStm (x : Nibble) (s : State) : Result :=
  transfer (x.toNat + 1) (s.store (effAddr s.index 0) (s.regRun x)) s

/-- `FX65` LDM: x[0] to x[X] from I to I + X (R165). -/
def execLdm (x : Nibble) (s : State) : Result :=
  transfer (x.toNat + 1) (s.loadRun x (effAddr s.index 0)) s

end Sys2Proof.Machine
end

