-- ==== Sys2Proof/Machine/KeysTimers.lean ====
section
/-! DEFINITION. The key and timer instructions (spec/44_keys_timers.md). -/

namespace Sys2Proof.Machine

/-- `EX9E` SKP: skip if key x[X] is pressed; an index of 16 or more faults (R190). -/
def execSkp (x : Nibble) (s : State) : Result :=
  settle s ((s.key (s.reg x)).map fun pressed => s.skipIf pressed)

/-- `EXA1` SKNP: skip if key x[X] is not pressed; an index of 16 or more faults (R191). -/
def execSknp (x : Nibble) (s : State) : Result :=
  settle s ((s.key (s.reg x)).map fun pressed => s.skipIf (!pressed))

/-- `FX0A` WKEY: the smallest pressed key into x[X], or back to this instruction's own address (R192). -/
def execWkey (x : Nibble) (s : State) : Result :=
  match s.lowestKey with
  | some k => .next (s.setReg x (BitVec.ofNat 8 k))
  | none => .next (s.setPc (s.pc - 2))

/-- `FX07` GETDT: `x[X] <- dt` (R193). -/
def execGetdt (x : Nibble) (s : State) : Result := .next (s.setReg x s.dt)

/-- `FX15` SETDT: `dt <- x[X]` (R194). -/
def execSetdt (x : Nibble) (s : State) : Result := .next (s.setDelay (s.reg x))

/-- `FX18` SETST: `st <- x[X]` (R195). -/
def execSetst (x : Nibble) (s : State) : Result := .next (s.setSound (s.reg x))

end Sys2Proof.Machine
end

