-- ==== Sys2Proof/Machine/LoadAlu.lean ====
section
/-! DEFINITION. Register loads, arithmetic, logic, shifts and the random byte (spec/41_load_alu.md). Statements run in the
order the rule writes them, each seeing the writes before it (00_scope.md R10, D11). -/

namespace Sys2Proof.Machine

/-- `6XNN` LDI: `x[X] <- NN` (R140). -/
def execLdi (x : Nibble) (nn : Byte) (s : State) : Result := .next (s.setReg x nn)

/-- `7XNN` ADDI: `x[X] <- (x[X] + NN) mod 256`, no flag (R141). -/
def execAddi (x : Nibble) (nn : Byte) (s : State) : Result := .next (s.setReg x (addBytes (s.reg x) nn))

/-- `8XY0` MOV: `x[X] <- x[Y]` (R142). -/
def execMov (x y : Nibble) (s : State) : Result := .next (s.setReg x (s.reg y))

/-- `8XY1` OR, no flag (R143). -/
def execOr (x y : Nibble) (s : State) : Result := .next (s.setReg x (s.reg x ||| s.reg y))

/-- `8XY2` AND, no flag (R144). -/
def execAnd (x y : Nibble) (s : State) : Result := .next (s.setReg x (s.reg x &&& s.reg y))

/-- `8XY3` XOR, no flag (R145). -/
def execXor (x y : Nibble) (s : State) : Result := .next (s.setReg x (s.reg x ^^^ s.reg y))

/-- A result into x[X] and then a flag into x[0xF], both computed from the operands on entry (R146, R147, R149). -/
def resultThenFlag (x : Nibble) (result : Byte) (flag : Bool) (s : State) : State := (s.setReg x result).setFlag flag

/-- `8XY4` ADD: the sum, then the carry (R146). -/
def execAdd (x y : Nibble) (s : State) : Result :=
  .next (resultThenFlag x (addBytes (s.reg x) (s.reg y)) (carry (s.reg x) (s.reg y)) s)

/-- `8XY5` SUB: x[X] - x[Y], then 1 if no borrow (R147). -/
def execSub (x y : Nibble) (s : State) : Result :=
  .next (resultThenFlag x (subBytes (s.reg x) (s.reg y)) (noBorrow (s.reg x) (s.reg y)) s)

/-- `8XY7` SUBN: x[Y] - x[X], then 1 if no borrow (R149). -/
def execSubn (x y : Nibble) (s : State) : Result :=
  .next (resultThenFlag x (subBytes (s.reg y) (s.reg x)) (noBorrow (s.reg y) (s.reg x)) s)

/-- The flag first, then the shift of what x[X] then holds (R148, R150: with X = 0xF that is the flag just written, D11). -/
def flagThenShift (x : Nibble) (flag : Bool) (shift : Byte → Byte) (s : State) : State :=
  (s.setFlag flag).setReg x (shift ((s.setFlag flag).reg x))

/-- `8XY6` SHR: the bit 0 to VF, then x[X] halved; Y is ignored (R148). -/
def execShr (x _y : Nibble) (s : State) : Result := .next (flagThenShift x (lowBit (s.reg x)) shiftRight s)

/-- `8XYE` SHL: the bit 7 to VF, then x[X] doubled; Y is ignored (R150). -/
def execShl (x _y : Nibble) (s : State) : Result := .next (flagThenShift x (highBit (s.reg x)) shiftLeft s)

/-- `CXNN` RND with the drawn byte `r`: `x[X] <- r AND NN` (R151). -/
def randomInto (x : Nibble) (nn r : Byte) (s : State) : State := s.setReg x (r &&& nn)

/-- `CXNN` RND: one fresh random byte is consumed (R151, R152). -/
def execRnd (x : Nibble) (nn : Byte) (s : State) : Result := .next (randomInto x nn s.randomByte s).countDraw

end Sys2Proof.Machine
end

