-- ==== Sys2Proof/Machine/Cycle.lean ====
section
/-! DEFINITION. The instruction cycle of `TICK`: fetch, decode, execute (spec/45_host_commands.md R213). -/

namespace Sys2Proof.Machine

/-- Phases 2 and 3 on a fetched word and the state the fetch left: decode, then execute; an unknown pattern takes
`DecodeError` with the fetch's effects in place (R213, R232, R236). -/
def runWord (w : Word) (s : State) : Result :=
  match decode w with
  | some i => exec i s
  | none => raise (.decodeError w) s

/-- One `TICK`: a halted core changes nothing (R222); a fault of the fetch is taken with nothing else changed (R236). The
byte that `TICK` brings for `CXNN` is `State.randomByte` (R152; log entry 2). -/
def tick (s : State) : Result :=
  if s.halted then .next s
  else
    match s.fetch with
    | .error f => raise f s
    | .ok (w, t) => runWord w t

end Sys2Proof.Machine
end

