-- ==== Sys2Proof/Machine/Step.lean ====
section
/-! DEFINITION. One step of the core is one `TICK` (spec/45_host_commands.md R213), and the placing of a word where the next
step fetches it. -/

namespace Sys2Proof.Machine

/-- One step: one `TICK`. -/
def step (s : State) : Host.Outcome State Fault Refusal := tick s

/-- `s` with the instruction whose bits are `w` stored where the next step fetches it, so that the next step runs it
(log entry 5). -/
def State.withFetchWord (s : State) (nbits w : Nat) : State := s.withWord (tableWord nbits w)

end Sys2Proof.Machine
end

