-- ==== Sys2Proof/Machine/Commands.lean ====
section
/-! DEFINITION. The host's command port: the six commands of spec/45_host_commands.md, each one atomic transition (R210). -/

namespace Sys2Proof.Machine

/-- The commands (R210). The random byte of `TICK` is not an argument here: it is `Config.randomByte` at the state's count of
draws (log entry 2). SET_KEY and GET_PIXEL take arguments of exactly 4, 6 and 5 bits (R218, R220). -/
inductive Command where
  | reset
  | load (bytes : List Byte)
  | tick
  | tickTimers
  | setKey (k : Nibble) (pressed : Bool)
  | getPixel (x : BitVec 6) (y : BitVec 5)
  deriving DecidableEq, Repr

/-- What a command answers (R210, R215). -/
inductive Response where
  /-- The command has no result. -/
  | none
  | ok
  /-- The core was already halted and ignored the command (R222). -/
  | halted
  /-- A LOAD that does not fit, or the fault a TICK raised (R212, R215). -/
  | fault (f : Fault)
  | pixel (on : Bool)
  deriving DecidableEq, Repr

/-- `RESET`: every item of state to its reset value, in any state (R211). The model's own count of draws goes on, so that the
bytes drawn after a RESET are not those drawn before it (log entry 2). -/
def State.afterReset (s : State) : State := { State.reset with draws := s.draws }

/-- Whether a program of `len` bytes fits between LOAD_ADDR and the top of memory (R212). -/
def loadFits (len : Nat) : Bool := decide (Config.loadAddr + len ≤ Config.memSize)

/-- `LOAD(bytes)`: all or nothing (R212, R234). -/
def State.afterLoad (s : State) (bytes : List Byte) : State × Response :=
  if s.halted then (s, .halted)
  else if loadFits bytes.length then (s.store Config.loadAddr bytes, .ok)
  else (s, .fault (.loadError bytes.length))

/-- A timer step of one timer: down by one, never below 0 (R216). -/
def countDown (v : Byte) : Byte := BitVec.ofNat 8 (v.toNat - 1)

/-- `TICK_TIMERS`: both timers, independently (R216). -/
def State.afterTimers (s : State) : State :=
  if s.halted then s else (s.setDelay (countDown s.dt)).setSound (countDown s.st)

/-- What a host that wants the moment of the tone compares: the sound timer 1 before a timer step and 0 after it. The core has
no tone output (R217, D25). -/
def toneMoment (before later : State) : Bool := before.st == 1 && later.st == 0

/-- `SET_KEY(k, b)` (R218). -/
def State.afterSetKey (s : State) (k : Nibble) (pressed : Bool) : State :=
  if s.halted then s else s.setKey k pressed

/-- `GET_PIXEL(x, y)`: answered in every state (R220). -/
def State.pixel (s : State) (x : BitVec 6) (y : BitVec 5) : Bool := s.fb.get y.toFin x.toFin

/-- The result of a `TICK` from the state before and the state after (R215). -/
def tickResponse (s t : State) : Response :=
  if s.halted then .halted
  else
    match t.fault with
    | none => .ok
    | some f => .fault f

/-- One command: the state after it and its response. -/
def command (c : Command) (s : State) : Host.Outcome (State × Response) Fault Refusal :=
  match c with
  | .reset => .next (s.afterReset, .none)
  | .load bytes => .next (s.afterLoad bytes)
  | .tick =>
    match step s with
    | .next t => .next (t, tickResponse s t)
    | .fault f => .fault f
    | .refused r => .refused r
  | .tickTimers => .next (s.afterTimers, .none)
  | .setKey k pressed => .next (s.afterSetKey k pressed, .none)
  | .getPixel x y => .next (s, .pixel (s.pixel x y))

/-- A list of commands, one after the other (R70, R210). -/
def runCommands : List Command → State → Host.Outcome State Fault Refusal
  | [], s => .next s
  | c :: cs, s =>
    match command c s with
    | .next (t, _) => runCommands cs t
    | .fault f => .fault f
    | .refused r => .refused r

end Sys2Proof.Machine
end

