-- ==== Sys2Proof/Safety.lean ====
section
/-! DEFINITION. What counts as a safe state of the core and as the end of a run, and the invariants of the machine
(spec/10_state.md R23, R31, spec/60_exceptions.md R230 to R236, spec/70_reset_and_hazards.md R271). -/

namespace Sys2Proof.Machine

/-- The core is running: no fault is latched. "A halted core is never a finished run" (R271). -/
def State.running (s : State) : Prop := s.fault = none

/-- A final state by the convention of R271: no fault, and the word at the program counter is JP to that very address. -/
def State.finished (s : State) : Prop :=
  s.running ∧ s.pc.toNat + 1 < Config.memSize ∧
    ∃ nnn, decode (s.wordAt s.pc.toNat) = some (.jp nnn) ∧ addrWord nnn = s.pc

/-- The largest value any rule can give the program counter: 0xFFF + 0xFF (R23). -/
def pcLimit : Nat := 0x10FE

/-- The program counter never exceeds 0x10FE, and every return address held is at most 0x1000 (R23, R124). -/
def State.pcBounded (s : State) : Prop :=
  s.pc.toNat ≤ pcLimit ∧ ∀ j : Fin 16, j.val < s.sp.val → s.stack[j].toNat ≤ Config.memSize

/-- What a latched fault says of the state it left (R230 to R235): a bad address is 4096 or more, an unknown word is one that
decodes to nothing and is the last one fetched, the stack is full or empty, the key index is 16 or more, and a LoadError is
never latched. -/
def State.faultSound (s : State) : Prop :=
  match s.fault with
  | none => True
  | some (.memoryFault a) => Config.memSize ≤ a ∧ a < 65536
  | some (.decodeError w) => decode w = none ∧ s.last = w
  | some (.stackFault .overflow) => s.sp.val = 16
  | some (.stackFault .underflow) => s.sp.val = 0
  | some (.loadError _) => False
  | some (.keyIndexFault k) => Config.numKeys ≤ k.toNat

/-- The invariant of the machine: memory is in its canonical form, the program counter is bounded, a latched fault is
sound. -/
def State.Inv (s : State) : Prop := s.mem.wf = true ∧ s.pcBounded ∧ s.faultSound

/-- A set bit of the `n`-row sprite at I, drawn with its first column at x[X] and its first row at x[Y], falls on the cell in
row `v` and column `u`: both coordinates wrap, and bit 7 of a byte is its column 0 (R181). -/
def State.spriteCovers (s : State) (x y n : Nibble) (v : Fin 32) (u : Fin 64) : Prop :=
  ∃ row column : Nat, row < n.toNat ∧ column < 8 ∧
    (s.mem.read (effAddr s.index row)).getLsbD (7 - column) = true ∧
    u.val = ((s.reg x).toNat + column) % 64 ∧ v.val = ((s.reg y).toNat + row) % 32

end Sys2Proof.Machine
end

