-- ==== Sys2Proof/Certificates/Slice0/Obligations.lean ====
section
/-! DEFINITION. The statements for the provers. Each says what the spec's rules say an instruction, a command or the machine
does; "D<n>" names a decision that the spec marks as its own. A frame is written `t = { s with f := t.f }`: everything but the
named fields is as it was, all of memory included where `mem` is not named. Within them `s` is the state the fetch left
(R90), so `s.pc` is already the address of the following instruction. -/

open Sys2Proof Sys2Proof.Machine

/-! Encoding. -/

/-- Decoding an encoded instruction gives it back, with every operand at every value (R92 to R96). Every `Instr` is well
formed (R94), so no premise is needed. -/
def Obligations.DecodeOfEncode : Prop := ∀ i : Instr, decode (encode i) = some i

/-- A word that decodes is the encoding of what it decodes to: no bit of a word is lost, the ignored Y of SHR and SHL
included (R92 to R96). -/
def Obligations.EncodeOfDecode : Prop := ∀ (w : Word) (i : Instr), decode w = some i → encode i = w

/-- A word is a row's instruction exactly when, masked, it is the row's match value (R96). -/
def Obligations.RowSelectsByMask : Prop :=
  ∀ (w : Word) (r : Word × Word), r ∈ opcodeRows → (w &&& r.1 = r.2 ↔ ∃ i, decode w = some i ∧ i.row = r)

/-- The unknown words are exactly those of the table of R97. -/
def Obligations.UnknownWordsAreTheListed : Prop :=
  ∀ w : Word, decode w = none ↔
    (w.toNat < 0x1000 ∧ w ≠ 0x0000#16 ∧ w ≠ 0x00E0#16 ∧ w ≠ 0x00EE#16) ∨
    ((w.toNat / 4096 = 5 ∨ w.toNat / 4096 = 9) ∧ w.toNat % 16 ≠ 0) ∨
    (w.toNat / 4096 = 8 ∧ w.toNat % 16 ∈ [0x8, 0x9, 0xA, 0xB, 0xC, 0xD, 0xF]) ∨
    (w.toNat / 4096 = 0xE ∧ w.toNat % 256 ∉ [0x9E, 0xA1]) ∨
    (w.toNat / 4096 = 0xF ∧ w.toNat % 256 ∉ [0x07, 0x0A, 0x15, 0x18, 0x1E, 0x29, 0x33, 0x55, 0x65])

/-- A few words written out from R96 decode to the instructions they stand for, one per format and family. -/
def Obligations.ListedWordsDecode : Prop :=
  decode 0b0000000011101110#16 = some .ret ∧
  decode 0b0010001100000000#16 = some (.call 0x300) ∧
  decode 0b0011001100101010#16 = some (.sei 3 0x2A) ∧
  decode 0b1000000100100111#16 = some (.subn 1 2) ∧
  decode 0b1000000100101110#16 = some (.shl 1 2) ∧
  decode 0b1101000000010101#16 = some (.drw 0 1 5) ∧
  decode 0b1110010110100001#16 = some (.sknp 5) ∧
  decode 0b1111001101010101#16 = some (.stm 3)

/-! The instruction cycle. -/

/-- A step runs the decoded instruction: a running core whose two bytes at the program counter are in memory, joined with the byte
at the program counter as the high one, and decode to `i`, executes `i` from the state with `pc` advanced by 2 and the word in
`last` (R62, R90, R213). -/
def Obligations.StepRunsDecodedInstruction : Prop :=
  ∀ (s : State) (i : Instr), s.running → s.pc.toNat + 1 < 4096 → decode (s.wordAt s.pc.toNat) = some i →
    (s.wordAt s.pc.toNat).toNat = 256 * (s.mem.read s.pc.toNat).toNat + (s.mem.read (s.pc.toNat + 1)).toNat ∧
    step s = exec i { s with pc := s.pc + 2, last := s.wordAt s.pc.toNat }

/-- A fetch beyond memory latches `MemoryFault` with the lowest address out of bounds and changes nothing else (R64, R90;
the state after the fault is D6, the payload D5). -/
def Obligations.FetchBeyondMemoryFaults : Prop :=
  ∀ s : State, s.running → 4096 ≤ s.pc.toNat + 1 →
    step s = .next { s with fault := some (.memoryFault (max s.pc.toNat 4096)) }

/-- An unknown word latches `DecodeError` with the word; `pc` is advanced and `last` written, nothing else changes (R97, R232;
the state after the fault is D6). -/
def Obligations.UnknownWordFaults : Prop :=
  ∀ s : State, s.running → s.pc.toNat + 1 < 4096 → decode (s.wordAt s.pc.toNat) = none →
    step s = .next { s with pc := s.pc + 2, last := s.wordAt s.pc.toNat,
                            fault := some (.decodeError (s.wordAt s.pc.toNat)) }

/-- Zero bytes run as NOPs: `k` ticks over `2 * k` zero bytes advance the program counter by `2 * k` and write nothing but
`last` (R100, R272, inferences the spec marks as its own). -/
def Obligations.ZeroBytesRunAsNops : Prop :=
  ∀ (k : Nat) (s : State), s.running → s.pc.toNat + 2 * k ≤ 4096 →
    (∀ a, s.pc.toNat ≤ a → a < s.pc.toNat + 2 * k → s.mem.read a = 0) →
    ∃ t, runCommands (List.replicate k .tick) s = .next t ∧ t.pc.toNat = s.pc.toNat + 2 * k ∧
      t = { s with pc := t.pc, last := t.last }

/-! Control flow. -/

/-- NOP: nothing; its word is 0x0000 and no other, every other `0NNN` but CLS and RET being unknown; the tick's only effects are
those of the fetch (R120). -/
def Obligations.NopOnlyFetches : Prop :=
  (∀ s : State, exec .nop s = .next s) ∧
  (∀ w : Word, decode w = some .nop ↔ w = 0x0000#16) ∧
  (∀ w : Word, fieldD1 w = 0x0#4 → w ≠ 0x0000#16 → w ≠ 0x00E0#16 → w ≠ 0x00EE#16 → decode w = none) ∧
  (∀ s : State, s.running → s.pc.toNat + 1 < 4096 → s.wordAt s.pc.toNat = 0x0000#16 →
    step s = .next { s with pc := s.pc + 2, last := 0x0000#16 })

/-- JP, the words 1NNN: the program counter becomes NNN, nothing else changes; to its own fetch address it changes nothing but
`last`; after a jump to 0xFFF the next fetch faults (R122); that this faulting fetch changes nothing but the latch is
D6, log entry 4. -/
def Obligations.JumpSetsPc : Prop :=
  (∀ w : Word, fieldD1 w = 0x1#4 → decode w = some (.jp (fieldNNN w))) ∧
  (∀ (nnn : Addr) (s : State), ∃ t, exec (.jp nnn) s = .next t ∧ t.pc.toNat = nnn.toNat ∧ t = { s with pc := t.pc }) ∧
  (∀ (nnn : Addr) (s : State), s.running → s.pc.toNat = nnn.toNat → nnn ≠ 0xFFF →
    decode (s.wordAt s.pc.toNat) = some (.jp nnn) → step s = .next { s with last := s.wordAt s.pc.toNat }) ∧
  (∀ s : State, s.running → ∃ t, exec (.jp 0xFFF) s = .next t ∧
    step t = .next { t with fault := some (.memoryFault 0x1000) })

/-- JPV0: the program counter becomes NNN + x[0], not reduced, whatever NNN's high bits are; nothing else changes (R124, D18). -/
def Obligations.ComputedJumpAddsRegisterZero : Prop :=
  ∀ (nnn : Addr) (s : State), ∃ t, exec (.jpv0 nnn) s = .next t ∧
    t.pc.toNat = nnn.toNat + (s.reg 0).toNat ∧ t = { s with pc := t.pc }

/-- SEI, SNEI, SER, SNER, the words 3XNN, 4XNN, 5XY0 and 9XY0: 2 is added to the advanced program counter exactly when the
condition holds; nothing else changes; with a fourth nibble other than 0 the two register forms are unknown; where the program
counter is left at 0xFFF or beyond the next fetch faults (R125 to R128); that the faulting fetch changes nothing but the latch is
D6, log entry 4. -/
def Obligations.SkipsAddTwo : Prop :=
  (∀ w : Word, (fieldD1 w = 0x3#4 → decode w = some (.sei (fieldX w) (fieldNN w))) ∧
    (fieldD1 w = 0x4#4 → decode w = some (.snei (fieldX w) (fieldNN w))) ∧
    (fieldD1 w = 0x5#4 → fieldN w = 0#4 → decode w = some (.ser (fieldX w) (fieldY w))) ∧
    (fieldD1 w = 0x9#4 → fieldN w = 0#4 → decode w = some (.sner (fieldX w) (fieldY w)))) ∧
  (∀ (x : Nibble) (nn : Byte) (s : State),
    exec (.sei x nn) s = .next { s with pc := if s.reg x = nn then s.pc + 2 else s.pc } ∧
    exec (.snei x nn) s = .next { s with pc := if s.reg x ≠ nn then s.pc + 2 else s.pc }) ∧
  (∀ (x y : Nibble) (s : State),
    exec (.ser x y) s = .next { s with pc := if s.reg x = s.reg y then s.pc + 2 else s.pc } ∧
    exec (.sner x y) s = .next { s with pc := if s.reg x ≠ s.reg y then s.pc + 2 else s.pc }) ∧
  (∀ w : Word, (fieldD1 w = 0x5#4 ∨ fieldD1 w = 0x9#4) → fieldN w ≠ 0#4 → decode w = none) ∧
  (∀ s : State, s.running → 0xFFF ≤ s.pc.toNat → ∃ f, step s = .next { s with fault := some f })

/-- CALL with room on the stack: the advanced program counter goes into the slot `sp`, `sp` rises by one, the program counter
becomes NNN; every other slot and everything else is unchanged (R123; the slot is D15). -/
def Obligations.CallPushesReturnAddress : Prop :=
  ∀ (nnn : Addr) (s : State), s.sp.val < 16 → ∃ t, exec (.call nnn) s = .next t ∧
    t.pc.toNat = nnn.toNat ∧ t.sp.val = s.sp.val + 1 ∧
    (∀ j : Fin 16, t.stack[j] = if j.val = s.sp.val then s.pc else s.stack[j]) ∧
    t = { s with pc := t.pc, sp := t.sp, stack := t.stack }

/-- RET with an entry held: the program counter becomes the entry below `sp`, `sp` falls by one, the slot keeps its contents;
nothing else changes (R121; the slot is D15). -/
def Obligations.ReturnPopsAddress : Prop :=
  ∀ (s : State) (j : Fin 16), j.val + 1 = s.sp.val → ∃ t, exec .ret s = .next t ∧
    t.pc = s.stack[j] ∧ t.sp.val = j.val ∧ t = { s with pc := t.pc, sp := t.sp }

/-- CALL with sixteen entries held latches `StackFault(overflow)`, RET with none held latches `StackFault(underflow)`; neither
changes anything else (R121, R123, R233; the state after the fault is D6). -/
def Obligations.StackEndsFault : Prop :=
  (∀ (nnn : Addr) (s : State), s.sp.val = 16 →
    exec (.call nnn) s = .next { s with fault := some (.stackFault .overflow) }) ∧
  (∀ s : State, s.sp.val = 0 → exec .ret s = .next { s with fault := some (.stackFault .underflow) })

/-- A RET at the call's target resumes after the CALL: the program counter and the stack pointer are as they were after the
CALL's fetch, and only the stack slot written differs (R121, R123). -/
def Obligations.CallThenReturnResumes : Prop :=
  ∀ (nnn : Addr) (s : State), s.sp.val < 16 → ∃ t u, exec (.call nnn) s = .next t ∧ exec .ret t = .next u ∧
    u = { s with stack := u.stack }

/-! Loads and arithmetic. -/

/-- LDI, MOV and GETDT write NN, x[Y] and the delay timer into x[X], SETDT and SETST copy x[X] into the delay and the sound timer;
every other register and everything else is unchanged; their words are 6XNN, 8XY0, FX07, FX15, FX18 (R140, R142, R193, R194,
R195). -/
def Obligations.CopiesWriteOneItem : Prop :=
  (∀ w : Word, (fieldD1 w = 0x6#4 → decode w = some (.ldi (fieldX w) (fieldNN w))) ∧
    (fieldD1 w = 0x8#4 → fieldN w = 0x0#4 → decode w = some (.mov (fieldX w) (fieldY w))) ∧
    (fieldD1 w = 0xF#4 → fieldNN w = 0x07#8 → decode w = some (.getdt (fieldX w))) ∧
    (fieldD1 w = 0xF#4 → fieldNN w = 0x15#8 → decode w = some (.setdt (fieldX w))) ∧
    (fieldD1 w = 0xF#4 → fieldNN w = 0x18#8 → decode w = some (.setst (fieldX w)))) ∧
  (∀ (x : Nibble) (nn : Byte) (s : State), ∃ t, exec (.ldi x nn) s = .next t ∧
    (∀ r, t.reg r = if r = x then nn else s.reg r) ∧ t = { s with regs := t.regs }) ∧
  (∀ (x y : Nibble) (s : State), ∃ t, exec (.mov x y) s = .next t ∧
    (∀ r, t.reg r = if r = x then s.reg y else s.reg r) ∧ t = { s with regs := t.regs }) ∧
  (∀ (x : Nibble) (s : State), ∃ t, exec (.getdt x) s = .next t ∧
    (∀ r, t.reg r = if r = x then s.dt else s.reg r) ∧ t = { s with regs := t.regs }) ∧
  (∀ (x : Nibble) (s : State),
    exec (.setdt x) s = .next { s with dt := s.reg x } ∧ exec (.setst x) s = .next { s with st := s.reg x })

/-- ADDI, the words 7XNN, adds NN to x[X] modulo 256 and sets no flag: every other register, VF among them, is unchanged
(R141). -/
def Obligations.AddImmediateWrapsWithoutFlag : Prop :=
  (∀ w : Word, fieldD1 w = 0x7#4 → decode w = some (.addi (fieldX w) (fieldNN w))) ∧
  (∀ (x : Nibble) (nn : Byte) (s : State), ∃ t, exec (.addi x nn) s = .next t ∧
    (∀ r, (t.reg r).toNat = if r = x then ((s.reg x).toNat + nn.toNat) % 256 else (s.reg r).toNat) ∧
    t = { s with regs := t.regs })

/-- OR, AND, XOR combine x[X] and x[Y] bit by bit into x[X] and touch no flag (R143, R144, R145; that VF is untouched is the
spec's own inference). -/
def Obligations.LogicIsBitwiseWithoutFlag : Prop :=
  ∀ (x y : Nibble) (s : State),
    (∃ t, exec (.or x y) s = .next t ∧ t = { s with regs := t.regs } ∧ ∀ r k,
      (t.reg r).getLsbD k = if r = x then (s.reg x).getLsbD k || (s.reg y).getLsbD k else (s.reg r).getLsbD k) ∧
    (∃ t, exec (.and x y) s = .next t ∧ t = { s with regs := t.regs } ∧ ∀ r k,
      (t.reg r).getLsbD k = if r = x then (s.reg x).getLsbD k && (s.reg y).getLsbD k else (s.reg r).getLsbD k) ∧
    (∃ t, exec (.xor x y) s = .next t ∧ t = { s with regs := t.regs } ∧ ∀ r k,
      (t.reg r).getLsbD k = if r = x then (s.reg x).getLsbD k ^^ (s.reg y).getLsbD k else (s.reg r).getLsbD k)

/-- ADD: x[X] becomes the sum modulo 256 and then VF becomes 1 if the sum exceeds 255, else 0, so with X = 0xF the flag stays (the
order is D11); nothing else changes (R146). -/
def Obligations.AddWritesSumThenCarry : Prop :=
  ∀ (x y : Nibble) (s : State), ∃ t, exec (.add x y) s = .next t ∧ t = { s with regs := t.regs } ∧ ∀ r,
    (t.reg r).toNat =
      if r = 0xF#4 then (if (s.reg x).toNat + (s.reg y).toNat > 255 then 1 else 0)
      else if r = x then ((s.reg x).toNat + (s.reg y).toNat) % 256 else (s.reg r).toNat

/-- SUB: x[X] becomes x[X] - x[Y] modulo 256 and then VF becomes 1 if there was no borrow, else 0 (the order with
X = 0xF is D11); nothing else changes (R147). -/
def Obligations.SubWritesDifferenceThenNoBorrow : Prop :=
  ∀ (x y : Nibble) (s : State), ∃ t, exec (.sub x y) s = .next t ∧ t = { s with regs := t.regs } ∧ ∀ r,
    (t.reg r).toNat =
      if r = 0xF#4 then (if (s.reg x).toNat ≥ (s.reg y).toNat then 1 else 0)
      else if r = x then
        (if (s.reg x).toNat ≥ (s.reg y).toNat then (s.reg x).toNat - (s.reg y).toNat
         else (s.reg x).toNat + 256 - (s.reg y).toNat)
      else (s.reg r).toNat

/-- SUBN: x[X] becomes x[Y] - x[X] modulo 256 and then VF becomes 1 if x[Y] was at least x[X], else 0; nothing else changes
(R149; the flag's reading is the spec's own inference). -/
def Obligations.SubnWritesDifferenceThenNoBorrow : Prop :=
  ∀ (x y : Nibble) (s : State), ∃ t, exec (.subn x y) s = .next t ∧ t = { s with regs := t.regs } ∧ ∀ r,
    (t.reg r).toNat =
      if r = 0xF#4 then (if (s.reg y).toNat ≥ (s.reg x).toNat then 1 else 0)
      else if r = x then
        (if (s.reg y).toNat ≥ (s.reg x).toNat then (s.reg y).toNat - (s.reg x).toNat
         else (s.reg y).toNat + 256 - (s.reg x).toNat)
      else (s.reg r).toNat

/-- SHR, for every Y: VF becomes the old bit 0 and x[X] its half; with X = 0xF the flag just written is halved, to 0 (R148,
D11); nothing else changes. -/
def Obligations.ShiftRightWritesFlagThenHalf : Prop :=
  ∀ (x y : Nibble) (s : State), ∃ t, exec (.shr x y) s = .next t ∧ t = { s with regs := t.regs } ∧ ∀ r,
    (t.reg r).toNat =
      if r = x then (if x = 0xF#4 then 0 else (s.reg x).toNat / 2)
      else if r = 0xF#4 then (s.reg x).toNat % 2 else (s.reg r).toNat

/-- SHL, for every Y: VF becomes the old bit 7 and x[X] its double modulo 256; with X = 0xF the flag just written is doubled,
to 0 or 2 (R150, D11); nothing else changes. -/
def Obligations.ShiftLeftWritesFlagThenDouble : Prop :=
  ∀ (x y : Nibble) (s : State), ∃ t, exec (.shl x y) s = .next t ∧ t = { s with regs := t.regs } ∧ ∀ r,
    (t.reg r).toNat =
      if r = x then (if x = 0xF#4 then 2 * ((s.reg x).toNat / 128) else (s.reg x).toNat * 2 % 256)
      else if r = 0xF#4 then (s.reg x).toNat / 128 else (s.reg r).toNat

/-- RND: x[X] becomes the drawn byte AND NN, whatever byte is drawn; a bit that is 0 in NN is 0 in x[X]; exactly one draw is
consumed and nothing else changes (R151, R152; the counter of draws is the model's, log entry 2). -/
def Obligations.RandomByteIsMasked : Prop :=
  ∀ (x : Nibble) (nn : Byte) (s : State), ∃ t, exec (.rnd x nn) s = .next t ∧
    (∀ r, t.reg r = if r = x then Config.randomByte s.draws &&& nn else s.reg r) ∧
    (∀ k, nn.getLsbD k = false → (t.reg x).getLsbD k = false) ∧
    t = { s with regs := t.regs, draws := s.draws + 1 }

/-! The index register and memory. -/

/-- SETI sets I to NNN and GLYPH sets I to 5 * x[X], not masked; nothing else changes; their words are ANNN and FX29 (R160,
R162). -/
def Obligations.IndexIsSet : Prop :=
  (∀ w : Word, (fieldD1 w = 0xA#4 → decode w = some (.seti (fieldNNN w))) ∧
    (fieldD1 w = 0xF#4 → fieldNN w = 0x29#8 → decode w = some (.glyph (fieldX w)))) ∧
  (∀ (nnn : Addr) (s : State), ∃ t, exec (.seti nnn) s = .next t ∧ t.index.toNat = nnn.toNat ∧
    t = { s with index := t.index }) ∧
  (∀ (x : Nibble) (s : State), ∃ t, exec (.glyph x) s = .next t ∧ t.index.toNat = 5 * (s.reg x).toNat ∧
    t = { s with index := t.index })

/-- ADDIX adds x[X] to I modulo 65536 and sets no flag; nothing else changes (R161, D8). -/
def Obligations.AddToIndexWrapsWithoutFlag : Prop :=
  ∀ (x : Nibble) (s : State), ∃ t, exec (.addix x) s = .next t ∧
    t.index.toNat = (s.index.toNat + (s.reg x).toNat) % 65536 ∧ t = { s with index := t.index }

/-- BCD with its three addresses in memory stores the hundreds, tens and ones at I, I + 1, I + 2; every other byte and everything
else, I among it, is unchanged (R163). -/
def Obligations.BcdStoresThreeDigits : Prop :=
  ∀ (x : Nibble) (s : State), s.index.toNat + 3 ≤ 4096 → ∃ t, exec (.bcd x) s = .next t ∧
    (t.mem.read (effAddr s.index 0)).toNat = (s.reg x).toNat / 100 ∧
    (t.mem.read (effAddr s.index 1)).toNat = (s.reg x).toNat / 10 % 10 ∧
    (t.mem.read (effAddr s.index 2)).toNat = (s.reg x).toNat % 10 ∧
    (∀ a, (a < effAddr s.index 0 ∨ effAddr s.index 2 < a) → t.mem.read a = s.mem.read a) ∧
    t = { s with mem := t.mem }

/-- STM with its range in memory stores x[0] to x[X] at I to I + X; every other byte and everything else, I among it, is
unchanged (R164). -/
def Obligations.StoreRunWritesRegisters : Prop :=
  ∀ (x : Nibble) (s : State), s.index.toNat + x.toNat < 4096 → ∃ t, exec (.stm x) s = .next t ∧
    (∀ r : Nibble, r.toNat ≤ x.toNat → t.mem.read (effAddr s.index r.toNat) = s.reg r) ∧
    (∀ a, (a < effAddr s.index 0 ∨ effAddr s.index x.toNat < a) → t.mem.read a = s.mem.read a) ∧
    t = { s with mem := t.mem }

/-- LDM with its range in memory loads x[0] to x[X] from I to I + X; registers above X and everything else, I and memory
among it, are unchanged (R165). -/
def Obligations.LoadRunReadsRegisters : Prop :=
  ∀ (x : Nibble) (s : State), s.index.toNat + x.toNat < 4096 → ∃ t, exec (.ldm x) s = .next t ∧
    (∀ r : Nibble, t.reg r = if r.toNat ≤ x.toNat then s.mem.read (effAddr s.index r.toNat) else s.reg r) ∧
    t = { s with regs := t.regs }

/-- A run stored by STM and loaded by LDM from the same I, in any state that has that I and the memory STM left, is the run that was
stored (R164, R165). -/
def Obligations.StoredRunIsLoadedBack : Prop :=
  ∀ (x : Nibble) (s : State), s.index.toNat + x.toNat < 4096 → ∃ t, exec (.stm x) s = .next t ∧
    ∀ u : State, u.mem = t.mem → u.index = s.index →
      ∃ v, exec (.ldm x) u = .next v ∧ ∀ r : Nibble, r.toNat ≤ x.toNat → v.reg r = s.reg r

/-- BCD, STM, LDM and DRW whose range leaves memory latch `MemoryFault` with the lowest address out of bounds, which is
max(I, 4096), and change nothing else: no byte, no register, no cell (R64, R231, R236; D5, D6, D7). -/
def Obligations.RangeBeyondMemoryFaults : Prop :=
  (∀ (x : Nibble) (s : State), 4096 ≤ s.index.toNat + 2 →
    exec (.bcd x) s = .next { s with fault := some (.memoryFault (max s.index.toNat 4096)) }) ∧
  (∀ (x : Nibble) (s : State), 4096 ≤ s.index.toNat + x.toNat →
    exec (.stm x) s = .next { s with fault := some (.memoryFault (max s.index.toNat 4096)) } ∧
    exec (.ldm x) s = .next { s with fault := some (.memoryFault (max s.index.toNat 4096)) }) ∧
  (∀ (x y n : Nibble) (s : State), 0 < n.toNat → 4096 ≤ s.index.toNat + n.toNat - 1 →
    exec (.drw x y n) s = .next { s with fault := some (.memoryFault (max s.index.toNat 4096)) })

/-! The framebuffer. -/

/-- CLS turns every cell off and writes nothing else, no flag either; its word is 0x00E0 and no other (R180). -/
def Obligations.ClearTurnsEveryCellOff : Prop :=
  (∀ s : State, ∃ t, exec .cls s = .next t ∧ (∀ v u, t.fb.get v u = false) ∧ t = { s with fb := t.fb }) ∧
  (∀ w : Word, decode w = some .cls ↔ w = 0x00E0#16)

/-- DRW with its sprite in memory, or with no rows: exactly the cells the sprite's set bits fall on are inverted, and VF becomes 1
if one of them was on, else 0, for every X and Y; nothing else changes (R181; the bit order is D10, the sampling of x[X] and
x[Y] on entry D12). The loop over rows and columns thereby equals its closed form. -/
def Obligations.DrawInvertsCoveredCells : Prop :=
  ∀ (x y n : Nibble) (s : State), (n.toNat = 0 ∨ s.index.toNat + n.toNat ≤ 4096) → ∃ t, exec (.drw x y n) s = .next t ∧
    (∀ v u, (s.spriteCovers x y n v u → t.fb.get v u = !(s.fb.get v u)) ∧
      (¬ s.spriteCovers x y n v u → t.fb.get v u = s.fb.get v u)) ∧
    ((∃ v u, s.spriteCovers x y n v u ∧ s.fb.get v u = true) → t.reg 0xF#4 = 1) ∧
    ((¬ ∃ v u, s.spriteCovers x y n v u ∧ s.fb.get v u = true) → t.reg 0xF#4 = 0) ∧
    (∀ r, r ≠ 0xF#4 → t.reg r = s.reg r) ∧
    t = { s with fb := t.fb, regs := t.regs }

/-- Drawing the same sprite twice at the same place gives the framebuffer back, where neither coordinate register is the flag
register that the first draw overwrites (R181, the property of example E4). -/
def Obligations.DrawTwiceRestoresFramebuffer : Prop :=
  ∀ (x y n : Nibble) (s : State), x ≠ 0xF#4 → y ≠ 0xF#4 → (n.toNat = 0 ∨ s.index.toNat + n.toNat ≤ 4096) →
    ∃ t u, exec (.drw x y n) s = .next t ∧ exec (.drw x y n) t = .next u ∧ u.fb = s.fb

/-! Keys and timers. -/

/-- SKP and SKNP with x[X] below 16: 2 is added to the advanced program counter exactly when that key is down, or up; nothing
else changes (R190, R191). -/
def Obligations.KeySkipsTestTheKey : Prop :=
  ∀ (x k : Nibble) (s : State), (s.reg x).toNat = k.toNat →
    exec (.skp x) s = .next { s with pc := if s.keys[k.toNat]'(k.isLt) = true then s.pc + 2 else s.pc } ∧
    exec (.sknp x) s = .next { s with pc := if s.keys[k.toNat]'(k.isLt) = true then s.pc else s.pc + 2 }

/-- SKP and SKNP with x[X] of 16 or more latch `KeyIndexFault` with the register's value and change nothing else (R190, R191,
R235; the fault is D9). -/
def Obligations.KeyIndexOfSixteenFaults : Prop :=
  ∀ (x : Nibble) (s : State), 16 ≤ (s.reg x).toNat →
    exec (.skp x) s = .next { s with fault := some (.keyIndexFault (s.reg x)) } ∧
    exec (.sknp x) s = .next { s with fault := some (.keyIndexFault (s.reg x)) }

/-- WKEY with a key down stores the smallest index that is down in x[X] and goes on; every other register and everything else is
unchanged (R192; which of several keys is D13). -/
def Obligations.KeyWaitStoresLowestKey : Prop :=
  ∀ (x k : Nibble) (s : State), s.keys[k.toNat]'(k.isLt) = true →
    (∀ j : Nibble, j.toNat < k.toNat → s.keys[j.toNat]'(j.isLt) = false) → ∃ t, exec (.wkey x) s = .next t ∧
      (∀ r, (t.reg r).toNat = if r = x then k.toNat else (s.reg r).toNat) ∧ t = { s with regs := t.regs }

/-- WKEY with every key up is a replay: the execute phase takes 2 from the program counter and changes nothing else, and the whole
tick leaves every item but `last` as it was (R192). -/
def Obligations.KeyWaitReplays : Prop :=
  (∀ (x : Nibble) (s : State), (∀ j : Nibble, s.keys[j.toNat]'(j.isLt) = false) →
    exec (.wkey x) s = .next { s with pc := s.pc - 2 }) ∧
  (∀ (x : Nibble) (s : State), (∀ j : Nibble, s.keys[j.toNat]'(j.isLt) = false) → s.running → s.pc.toNat + 1 < 4096 →
    decode (s.wordAt s.pc.toNat) = some (.wkey x) → step s = .next { s with last := s.wordAt s.pc.toNat })

/-! The whole machine. -/

/-- Every step answers a next state, a fault of the machine being latched; the TICK command gives that state, and answers `halted`
where the core was halted already, else the fault it latched, else `ok` (R213, R215, R241). -/
def Obligations.EveryTickCompletes : Prop :=
  ∀ s : State, ∃ t, step s = .next t ∧
    (¬ s.running → command .tick s = .next (t, .halted)) ∧
    (s.running → t.fault = none → command .tick s = .next (t, .ok)) ∧
    (∀ f, s.running → t.fault = some f → command .tick s = .next (t, .fault f))

/-- Faults are precise: an instruction that latches a fault has changed nothing else of the state the fetch left (R236, D6). -/
def Obligations.FaultingInstructionWritesNothing : Prop :=
  ∀ (i : Instr) (s t : State), s.running → exec i s = .next t → t.fault ≠ none → t = { s with fault := t.fault }

/-- No instruction can raise a fault of another's kind: CALL and RET raise only `StackFault`, DRW, BCD, STM and LDM only
`MemoryFault`, SKP and SKNP only `KeyIndexFault`, every other instruction none (R237, an inference of the spec). -/
def Obligations.EachInstructionHasItsFault : Prop :=
  ∀ (i : Instr) (s t : State) (f : Fault), s.running → exec i s = .next t → t.fault = some f →
    ((∃ nnn, i = .call nnn) ∧ f = .stackFault .overflow) ∨ (i = .ret ∧ f = .stackFault .underflow) ∨
    (((∃ x y n, i = .drw x y n) ∨ (∃ x, i = .bcd x ∨ i = .stm x ∨ i = .ldm x)) ∧
      f = .memoryFault (max s.index.toNat 4096)) ∨
    (∃ x, (i = .skp x ∨ i = .sknp x) ∧ f = .keyIndexFault (s.reg x))

/-- Only six instructions write VF as a flag, and then 0 or 1, or what a shift makes of it; any other instruction that changes VF
names register 0xF as its X (R21). -/
def Obligations.OnlySixInstructionsWriteTheFlag : Prop :=
  ∀ (i : Instr) (s t : State), exec i s = .next t → t.reg 0xF#4 ≠ s.reg 0xF#4 →
    (∃ x y, i = .add x y ∨ i = .sub x y ∨ i = .shr x y ∨ i = .subn x y ∨ i = .shl x y) ∨
    (∃ x y n, i = .drw x y n) ∨
    (∃ nn, i = .ldi 0xF nn ∨ i = .addi 0xF nn ∨ i = .rnd 0xF nn) ∨
    (∃ y, i = .mov 0xF y ∨ i = .or 0xF y ∨ i = .and 0xF y ∨ i = .xor 0xF y) ∨
    i = .getdt 0xF ∨ i = .wkey 0xF ∨ i = .ldm 0xF

/-- The write sets of the table of R34, register by register, with the program counter's writers of R23 and the latch's of R230: what
the execute phase changes, it changes only in the named instructions. No instruction writes the keys or, after the fetch,
`last`; which fault each instruction latches is `EachInstructionHasItsFault`. `draws` is the model's own, log entry 2. -/
def Obligations.EachItemHasItsWriters : Prop :=
  ∀ (i : Instr) (s t : State), exec i s = .next t →
    t.keys = s.keys ∧ t.last = s.last ∧
    (∀ r, t.reg r ≠ s.reg r →
      (∃ nn, i = .ldi r nn ∨ i = .addi r nn ∨ i = .rnd r nn) ∨
      (∃ y, i = .mov r y ∨ i = .or r y ∨ i = .and r y ∨ i = .xor r y) ∨
      (∃ x y, (r = x ∨ r = 0xF#4) ∧ (i = .add x y ∨ i = .sub x y ∨ i = .shr x y ∨ i = .subn x y ∨ i = .shl x y)) ∨
      (r = 0xF#4 ∧ ∃ x y n, i = .drw x y n) ∨
      i = .getdt r ∨ i = .wkey r ∨
      (∃ x, r.toNat ≤ x.toNat ∧ i = .ldm x)) ∧
    (t.pc ≠ s.pc →
      i = .ret ∨ (∃ nnn, i = .jp nnn ∨ i = .call nnn ∨ i = .jpv0 nnn) ∨
      (∃ x nn, i = .sei x nn ∨ i = .snei x nn) ∨ (∃ x y, i = .ser x y ∨ i = .sner x y) ∨
      ∃ x, i = .skp x ∨ i = .sknp x ∨ i = .wkey x) ∧
    (t.dt ≠ s.dt → ∃ x, i = .setdt x) ∧
    (t.st ≠ s.st → ∃ x, i = .setst x) ∧
    (t.index ≠ s.index → (∃ nnn, i = .seti nnn) ∨ ∃ x, i = .addix x ∨ i = .glyph x) ∧
    (t.fb ≠ s.fb → i = .cls ∨ ∃ x y n, i = .drw x y n) ∧
    (t.sp ≠ s.sp → i = .ret ∨ ∃ nnn, i = .call nnn) ∧
    (t.stack ≠ s.stack → ∃ nnn, i = .call nnn) ∧
    ((∃ a, t.mem.read a ≠ s.mem.read a) → ∃ x, i = .bcd x ∨ i = .stm x) ∧
    (t.fault ≠ s.fault →
      i = .ret ∨ (∃ nnn, i = .call nnn) ∨ (∃ x y n, i = .drw x y n) ∨
      ∃ x, i = .bcd x ∨ i = .stm x ∨ i = .ldm x ∨ i = .skp x ∨ i = .sknp x) ∧
    (t.draws ≠ s.draws → ∃ x nn, i = .rnd x nn)

/-- `last` has no behavioural effect: with any other value of it a step gives the same next state but for `last` (R29). -/
def Obligations.LastHasNoEffect : Prop :=
  ∀ (s t : State) (w : Word), step s = .next t →
    ∃ u, step { s with last := w } = .next u ∧ { u with last := t.last } = t

/-- No instruction reads the sound timer: with any other value of it an instruction gives the same next state but for `st`
(R25, R34). -/
def Obligations.SoundTimerIsNeverRead : Prop :=
  ∀ (i : Instr) (s t : State) (v : Byte), exec i s = .next t →
    ∃ u, exec i { s with st := v } = .next u ∧ { u with st := t.st } = t

/-- A final state stays as it is but for `last`, and stays final (R271, the convention of D22). -/
def Obligations.FinishedIsFixedPoint : Prop :=
  ∀ s : State, s.finished → ∃ t, step s = .next t ∧ t = { s with last := s.wordAt s.pc.toNat } ∧ t.finished

/-! Invariants. -/

/-- Every step keeps memory in its canonical form, with no cell at 4096 or above (R26, R64; the form is the model's). -/
def Obligations.StepKeepsMemoryCanonical : Prop :=
  ∀ s t : State, s.mem.wf = true → step s = .next t → t.mem.wf = true

/-- Every step keeps the program counter at most 0x10FE and every return address held at most 0x1000 (R23, an inference of the
spec). -/
def Obligations.StepKeepsPcBounded : Prop := ∀ s t : State, s.pcBounded → step s = .next t → t.pcBounded

/-- Every step keeps the latched fault sound: what it records is so in the state it left, and a `LoadError` is never latched
(R230 to R236). -/
def Obligations.StepKeepsFaultSound : Prop := ∀ s t : State, s.faultSound → step s = .next t → t.faultSound

/-- The state after reset meets the invariants (R33). -/
def Obligations.ResetMeetsInvariants : Prop := State.reset.Inv

/-- Every command, from every state that meets the invariants, completes in a state that meets them; so every list of commands a host
issues from power-on completes in such a state (R210, R223). -/
def Obligations.CommandsKeepInvariants : Prop :=
  (∀ (c : Command) (s : State), s.Inv → ∃ t r, command c s = .next (t, r) ∧ t.Inv) ∧
  (∀ cs : List Command, ∃ t, runCommands cs State.reset = .next t ∧ t.Inv)

/-! Reset and the host's commands. -/

/-- RESET, from any state, leaves the values of R33, FONT at 0 to 79 and 0 in the rest of memory; the latch being empty is D3; the
font bytes are the spec's default table, log entry 1; the model's own count of draws goes on, log entry 2. A second RESET
changes nothing. -/
def Obligations.ResetLeavesTheResetState : Prop :=
  ∀ s : State, ∃ t, command .reset s = .next (t, .none) ∧
    (∀ r, t.reg r = 0) ∧ t.index = 0 ∧ t.pc = 0x200 ∧ (∀ j : Fin 16, t.stack[j] = 0) ∧ t.sp.val = 0 ∧ t.dt = 0 ∧ t.st = 0 ∧
    (∀ a, t.mem.read a = if a < 80 then fontTable.getD a 0 else 0) ∧ (∀ v u, t.fb.get v u = false) ∧
    (∀ k : Fin 16, t.keys[k] = false) ∧ t.last = 0 ∧ t.fault = none ∧ t.draws = s.draws ∧
    t = { State.reset with draws := s.draws } ∧ command .reset t = .next (t, .none)

/-- LOAD of bytes that fit into a running core writes them at 0x200 and up and nothing else; reading memory back gives the bytes
(R212, R76). -/
def Obligations.LoadRoundTrip : Prop :=
  ∀ (bytes : List Byte) (s : State), s.running → 0x200 + bytes.length ≤ 4096 →
    ∃ t, command (.load bytes) s = .next (t, .ok) ∧
      (∀ k (h : k < bytes.length), t.mem.read (0x200 + k) = bytes[k]) ∧
      (∀ a, (a < 0x200 ∨ 0x200 + bytes.length ≤ a) → t.mem.read a = s.mem.read a) ∧
      t = { s with mem := t.mem }

/-- LOAD of bytes that do not fit answers `LoadError` with their number and changes nothing at all; the core is not halted (R212,
R234, D19). -/
def Obligations.LoadTooLargeChangesNothing : Prop :=
  ∀ (bytes : List Byte) (s : State), s.running → 4096 < 0x200 + bytes.length →
    command (.load bytes) s = .next (s, .fault (.loadError bytes.length))

/-- `k` timer steps of a running core take each timer down by `k`, never below 0, and change nothing else (R216; the core must
run, D3). -/
def Obligations.TimerStepsCountDownToZero : Prop :=
  ∀ (k : Nat) (s : State), s.running → ∃ t, runCommands (List.replicate k .tickTimers) s = .next t ∧
    t.dt.toNat = s.dt.toNat - k ∧ t.st.toNat = s.st.toNat - k ∧ t = { s with dt := t.dt, st := t.st }

/-- SET_KEY on a running core writes that key and nothing else (R218; the core must run, D3, and the command's shape is D23). -/
def Obligations.SetKeyWritesOneKey : Prop :=
  ∀ (k : Nibble) (b : Bool) (s : State), s.running → ∃ t, command (.setKey k b) s = .next (t, .none) ∧
    (∀ j : Nibble, t.keys[j.toNat]'(j.isLt) = if j = k then b else s.keys[j.toNat]'(j.isLt)) ∧ t = { s with keys := t.keys }

/-- GET_PIXEL answers the cell in column x and row y and changes nothing, in every state, the halted one too (R220, R222; the
widths of its arguments are D26). -/
def Obligations.GetPixelAnswersTheCell : Prop :=
  ∀ (x : BitVec 6) (y : BitVec 5) (s : State),
    command (.getPixel x y) s = .next (s, .pixel ((s.fb[y.toNat]'(y.isLt))[x.toNat]'(x.isLt)))

/-- A halted core stays as it is under every list of commands without a RESET, and answers `halted` to TICK and LOAD (R222,
R242, D3). -/
def Obligations.HaltedCoreChangesNothing : Prop :=
  ∀ s : State, s.fault ≠ none →
    (∀ cs : List Command, Command.reset ∉ cs → runCommands cs s = .next s) ∧
    step s = .next s ∧ command .tick s = .next (s, .halted) ∧
    ∀ bytes, command (.load bytes) s = .next (s, .halted)
end

