-- ==== Sys2Proof/Laws/Arith.lean ====
section
/-! SUPPORT. The arithmetic of the instructions as natural numbers, one lemma per function (spec/41_load_alu.md R153). -/

namespace Sys2Proof.Machine

@[simp] theorem flagByte_toNat (b : Bool) : (flagByte b).toNat = if b then 1 else 0 := by cases b <;> rfl

@[simp] theorem addBytes_toNat (a b : Byte) : (addBytes a b).toNat = (a.toNat + b.toNat) % 256 := by
  simp [addBytes]

/-- The difference is plain where the minuend is at least the subtrahend, and 256 more otherwise. -/
theorem subBytes_toNat (a b : Byte) :
    (subBytes a b).toNat = if a.toNat ≥ b.toNat then a.toNat - b.toNat else a.toNat + 256 - b.toNat := by
  have ha := a.isLt
  have hb := b.isLt
  simp only [subBytes, BitVec.toNat_ofNat]
  split <;> omega

@[simp] theorem shiftRight_toNat (a : Byte) : (shiftRight a).toNat = a.toNat / 2 := by
  have ha := a.isLt
  simp only [shiftRight, BitVec.toNat_ofNat]; omega

@[simp] theorem shiftLeft_toNat (a : Byte) : (shiftLeft a).toNat = a.toNat * 2 % 256 := by
  simp [shiftLeft]

/-- The bit shifted out to the right, as a flag. -/
theorem flagByte_lowBit_toNat (a : Byte) : (flagByte (lowBit a)).toNat = a.toNat % 2 := by
  rw [flagByte_toNat, lowBit, BitVec.getLsbD, Nat.testBit_zero]
  rcases Nat.mod_two_eq_zero_or_one a.toNat with h | h <;> simp [h]

/-- The bit shifted out to the left, as a flag. -/
theorem flagByte_highBit_toNat (a : Byte) : (flagByte (highBit a)).toNat = a.toNat / 128 := by
  have ha := a.isLt
  rw [flagByte_toNat, highBit, BitVec.getLsbD, Nat.testBit_eq_decide_div_mod_eq]
  by_cases h : a.toNat / 2 ^ 7 % 2 = 1
  · rw [if_pos (by simpa using h)]; omega
  · rw [if_neg (by simpa using h)]; omega

@[simp] theorem addrWord_toNat (nnn : Addr) : (addrWord nnn).toNat = nnn.toNat := by
  have := nnn.isLt
  simp only [addrWord, BitVec.toNat_setWidth]; omega

@[simp] theorem byteWord_toNat (v : Byte) : (byteWord v).toNat = v.toNat := by
  have := v.isLt
  simp only [byteWord, BitVec.toNat_setWidth]; omega

/-- A computed jump's target is the exact sum. -/
@[simp] theorem jumpSum_toNat (nnn : Addr) (v : Byte) : (jumpSum nnn v).toNat = nnn.toNat + v.toNat := by
  have := nnn.isLt
  have := v.isLt
  simp only [jumpSum, BitVec.toNat_add, addrWord_toNat, byteWord_toNat]; omega

@[simp] theorem indexAdd_toNat (i : Word) (v : Byte) : (indexAdd i v).toNat = (i.toNat + v.toNat) % 65536 := by
  simp [indexAdd]

@[simp] theorem glyphAddr_toNat (v : Byte) : (glyphAddr v).toNat = 5 * v.toNat := by
  have := v.isLt
  simp only [glyphAddr, BitVec.toNat_ofNat]; omega

/-- There are three decimal digits. -/
@[simp] theorem length_decimalDigits (v : Byte) : (decimalDigits v).length = 3 := rfl

@[simp] theorem pixelX_val (v : Byte) (c : Nat) : (pixelX v c).val = (v.toNat + c) % 64 := rfl

@[simp] theorem pixelY_val (v : Byte) (r : Nat) : (pixelY v r).val = (v.toNat + r) % 32 := rfl

end Sys2Proof.Machine
end

