-- ==== Sys2Proof/Laws/Decode.lean ====
section
/-! SUPPORT. Words and their fields as natural numbers, the fields of an encoded word format by format, and a word as its
fields joined. -/

namespace Sys2Proof

/-! Fields, bytes and formats as numbers. -/

theorem append_toNat {m n : Nat} (a : BitVec m) (b : BitVec n) : (a ++ b).toNat = a.toNat * 2 ^ n + b.toNat := by
  rw [BitVec.toNat_append, ← Nat.shiftLeft_add_eq_or_of_lt b.isLt, Nat.shiftLeft_eq]

theorem fieldD1_toNat (w : Word) : (fieldD1 w).toNat = w.toNat / 4096 := by
  have := w.isLt
  simp only [fieldD1, BitVec.extractLsb'_toNat, Nat.shiftRight_eq_div_pow]; omega

theorem fieldX_toNat (w : Word) : (fieldX w).toNat = w.toNat / 256 % 16 := by
  simp [fieldX, BitVec.extractLsb'_toNat, Nat.shiftRight_eq_div_pow]

theorem fieldY_toNat (w : Word) : (fieldY w).toNat = w.toNat / 16 % 16 := by
  simp [fieldY, BitVec.extractLsb'_toNat, Nat.shiftRight_eq_div_pow]

theorem fieldN_toNat (w : Word) : (fieldN w).toNat = w.toNat % 16 := by
  simp [fieldN, BitVec.extractLsb'_toNat]

theorem fieldNN_toNat (w : Word) : (fieldNN w).toNat = w.toNat % 256 := by
  simp [fieldNN, BitVec.extractLsb'_toNat]

theorem fieldNNN_toNat (w : Word) : (fieldNNN w).toNat = w.toNat % 4096 := by
  simp [fieldNNN, BitVec.extractLsb'_toNat]

theorem highByte_toNat (w : Word) : (highByte w).toNat = w.toNat / 256 := by
  have := w.isLt
  simp only [highByte, BitVec.extractLsb'_toNat, Nat.shiftRight_eq_div_pow]; omega

theorem lowByte_toNat (w : Word) : (lowByte w).toNat = w.toNat % 256 := by
  simp [lowByte, BitVec.extractLsb'_toNat]

/-- A fetched word is `256 * mem[pc] + mem[pc+1]` (R62). -/
theorem wordOfBytes_toNat (b0 b1 : Byte) : (wordOfBytes b0 b1).toNat = 256 * b0.toNat + b1.toNat :=
  (append_toNat b0 b1).trans (by omega)

theorem formatA_toNat (d : Nibble) (a : Addr) : (formatA d a).toNat = 4096 * d.toNat + a.toNat :=
  (append_toNat d a).trans (by omega)

theorem formatI_toNat (d x : Nibble) (k : Byte) :
    (formatI d x k).toNat = 4096 * d.toNat + 256 * x.toNat + k.toNat := by
  have h := append_toNat d (x ++ k)
  rw [append_toNat x k] at h
  exact h.trans (by omega)

theorem formatR_toNat (d x y n : Nibble) :
    (formatR d x y n).toNat = 4096 * d.toNat + 256 * x.toNat + 16 * y.toNat + n.toNat := by
  have h := append_toNat d (x ++ (y ++ n))
  rw [append_toNat x (y ++ n), append_toNat y n] at h
  exact h.trans (by omega)

/-! The fields of every format. -/

@[simp] theorem fieldD1_formatA (d : Nibble) (a : Addr) : fieldD1 (formatA d a) = d := by
  apply BitVec.eq_of_toNat_eq; rw [fieldD1_toNat, formatA_toNat]; omega

@[simp] theorem fieldNNN_formatA (d : Nibble) (a : Addr) : fieldNNN (formatA d a) = a := by
  apply BitVec.eq_of_toNat_eq; rw [fieldNNN_toNat, formatA_toNat]; omega

@[simp] theorem fieldD1_formatI (d x : Nibble) (k : Byte) : fieldD1 (formatI d x k) = d := by
  apply BitVec.eq_of_toNat_eq; rw [fieldD1_toNat, formatI_toNat]; omega

@[simp] theorem fieldX_formatI (d x : Nibble) (k : Byte) : fieldX (formatI d x k) = x := by
  apply BitVec.eq_of_toNat_eq; rw [fieldX_toNat, formatI_toNat]; omega

@[simp] theorem fieldNN_formatI (d x : Nibble) (k : Byte) : fieldNN (formatI d x k) = k := by
  apply BitVec.eq_of_toNat_eq; rw [fieldNN_toNat, formatI_toNat]; omega

@[simp] theorem fieldD1_formatR (d x y n : Nibble) : fieldD1 (formatR d x y n) = d := by
  apply BitVec.eq_of_toNat_eq; rw [fieldD1_toNat, formatR_toNat]; omega

@[simp] theorem fieldX_formatR (d x y n : Nibble) : fieldX (formatR d x y n) = x := by
  apply BitVec.eq_of_toNat_eq; rw [fieldX_toNat, formatR_toNat]; omega

@[simp] theorem fieldY_formatR (d x y n : Nibble) : fieldY (formatR d x y n) = y := by
  apply BitVec.eq_of_toNat_eq; rw [fieldY_toNat, formatR_toNat]; omega

@[simp] theorem fieldN_formatR (d x y n : Nibble) : fieldN (formatR d x y n) = n := by
  apply BitVec.eq_of_toNat_eq; rw [fieldN_toNat, formatR_toNat]; omega

/-! A word is its fields joined. -/

theorem word_eq_formatA (w : Word) : formatA (fieldD1 w) (fieldNNN w) = w := by
  apply BitVec.eq_of_toNat_eq; rw [formatA_toNat, fieldD1_toNat, fieldNNN_toNat]; omega

theorem word_eq_formatI (w : Word) : formatI (fieldD1 w) (fieldX w) (fieldNN w) = w := by
  apply BitVec.eq_of_toNat_eq; rw [formatI_toNat, fieldD1_toNat, fieldX_toNat, fieldNN_toNat]; omega

theorem word_eq_formatR (w : Word) : formatR (fieldD1 w) (fieldX w) (fieldY w) (fieldN w) = w := by
  apply BitVec.eq_of_toNat_eq; rw [formatR_toNat, fieldD1_toNat, fieldX_toNat, fieldY_toNat, fieldN_toNat]; omega

/-- A word is its two bytes, as memory holds them (R62). -/
@[simp] theorem wordOfBytes_bytes (w : Word) : wordOfBytes (highByte w) (lowByte w) = w := by
  apply BitVec.eq_of_toNat_eq; rw [wordOfBytes_toNat, highByte_toNat, lowByte_toNat]; omega

/-! The mask of a format keeps the fixed fields and clears the operands. -/

theorem append_and {m n : Nat} (a c : BitVec m) (b d : BitVec n) : (a ++ b) &&& (c ++ d) = (a &&& c) ++ (b &&& d) :=
  BitVec.and_append

theorem and_mask_all {n : Nat} (a : BitVec n) : a &&& BitVec.allOnes n = a := BitVec.and_allOnes

theorem and_mask_none {n : Nat} (a : BitVec n) : a &&& 0#n = 0#n := BitVec.and_zero

theorem formatA_and_mask (d : Nibble) (a : Addr) : formatA d a &&& 0xF000 = formatA d 0 := by
  have h := append_and d (BitVec.allOnes 4) a 0#12
  rw [and_mask_all, and_mask_none] at h
  exact h

theorem formatI_and_mask (d x : Nibble) (k : Byte) : formatI d x k &&& 0xF000 = formatI d 0 0 := by
  have h := append_and d (BitVec.allOnes 4) (x ++ k) (0#4 ++ 0#8)
  rw [append_and x, and_mask_all, and_mask_none, and_mask_none] at h
  exact h

theorem formatI_and_mask_low (d x : Nibble) (k : Byte) : formatI d x k &&& 0xF0FF = formatI d 0 k := by
  have h := append_and d (BitVec.allOnes 4) (x ++ k) (0#4 ++ BitVec.allOnes 8)
  rw [append_and x, and_mask_all, and_mask_all, and_mask_none] at h
  exact h

theorem formatR_and_mask (d x y n : Nibble) : formatR d x y n &&& 0xF000 = formatR d 0 0 0 := by
  have h := append_and d (BitVec.allOnes 4) (x ++ (y ++ n)) (0#4 ++ (0#4 ++ 0#4))
  rw [append_and x _ (y ++ n) _, append_and y, and_mask_all, and_mask_none, and_mask_none, and_mask_none] at h
  exact h

theorem formatR_and_mask_low (d x y n : Nibble) : formatR d x y n &&& 0xF00F = formatR d 0 0 n := by
  have h := append_and d (BitVec.allOnes 4) (x ++ (y ++ n)) (0#4 ++ (0#4 ++ BitVec.allOnes 4))
  rw [append_and x _ (y ++ n) _, append_and y, and_mask_all, and_mask_all, and_mask_none, and_mask_none] at h
  exact h

end Sys2Proof
end

