-- ==== Sys2Proof/Laws/Memory.lean ====
section
/-! SUPPORT. The laws of memory: a byte read after a write of one byte and of several, and that every write keeps the
canonical form. None but the last needs the form as a premise. -/

namespace Sys2Proof.Machine

theorem Memory.read_erase (m : Memory) (a b : Nat) :
    (m.erase a).read b = if b = a then Memory.unlisted b else m.read b := by
  induction m with
  | nil => simp [Memory.erase, Memory.read]
  | cons c m ih =>
    obtain ⟨k, w⟩ := c
    by_cases hk : a = k <;> by_cases hb : b = a <;> simp_all [Memory.erase, Memory.read]

theorem Memory.read_insert (m : Memory) (a : Nat) (v : Byte) (b : Nat) :
    ((m.erase a).insert a v).read b = if b = a then v else m.read b := by
  induction m with
  | nil => simp [Memory.erase, Memory.insert, Memory.read]
  | cons c m ih =>
    obtain ⟨k, w⟩ := c
    have he := Memory.read_erase m a b
    by_cases hk : a = k
    · by_cases hb : b = a <;> simp_all [Memory.erase, Memory.read]
    · simp only [Memory.erase, if_neg hk, Memory.insert]
      by_cases hlt : a < k
      · by_cases hb : b = a <;> simp_all [Memory.read]
      · simp only [if_neg hlt, Memory.read]
        rw [ih]
        by_cases hb : b = a <;> simp_all

/-- A byte read after a one-byte write. -/
@[simp] theorem Memory.read_write (m : Memory) (a : Nat) (v : Byte) (b : Nat) :
    (m.write a v).read b = if b = a then v else m.read b := by
  unfold Memory.write
  split
  · rename_i h
    rw [Memory.read_erase]
    split <;> simp_all
  · exact Memory.read_insert m a v b

/-- A byte read after bytes were written at ascending addresses. -/
theorem Memory.read_writeBytes (bs : List Byte) : ∀ (m : Memory) (a b : Nat),
    (m.writeBytes a bs).read b = if a ≤ b ∧ b < a + bs.length then bs.getD (b - a) 0 else m.read b := by
  induction bs with
  | nil => intro m a b; rw [if_neg (by simp only [List.length_nil]; omega)]; rfl
  | cons v vs ih =>
    intro m a b
    rw [Memory.writeBytes, ih, Memory.read_write]
    by_cases hb : b = a
    · subst hb; simp
    · by_cases h : a + 1 ≤ b ∧ b < a + 1 + vs.length
      · have : b - a = (b - (a + 1)) + 1 := by omega
        rw [if_pos h, if_pos (by simp only [List.length_cons]; omega), this, List.getD_cons_succ]
      · rw [if_neg h, if_neg hb, if_neg (by simp only [List.length_cons]; omega)]

/-- The bytes of `readBytes` are the bytes at ascending addresses. -/
@[simp] theorem Memory.length_readBytes (m : Memory) (n : Nat) : ∀ a, (m.readBytes a n).length = n := by
  induction n with
  | zero => intro a; rfl
  | succ n ih => intro a; simp [Memory.readBytes, ih]

theorem Memory.getElem?_readBytes (m : Memory) (n : Nat) : ∀ a k, k < n →
    (m.readBytes a n)[k]? = some (m.read (a + k)) := by
  induction n with
  | zero => intro a k h; omega
  | succ n ih =>
    intro a k h
    cases k with
    | zero => simp [Memory.readBytes]
    | succ k => simp only [Memory.readBytes, List.getElem?_cons_succ]; rw [ih (a + 1) k (by omega)]; congr 2; omega

/-! The canonical form. -/

theorem Memory.wfFrom_mono {m : Memory} {lo hi : Nat} (h : Memory.wfFrom hi m = true) (hle : lo ≤ hi) :
    Memory.wfFrom lo m = true := by
  cases m with
  | nil => rfl
  | cons c m =>
    simp only [Memory.wfFrom, Bool.and_eq_true, decide_eq_true_eq] at h ⊢
    exact ⟨⟨⟨Nat.le_trans hle h.1.1.1, h.1.1.2⟩, h.1.2⟩, h.2⟩

theorem Memory.wfFrom_erase {m : Memory} (a : Nat) : ∀ {lo}, Memory.wfFrom lo m = true →
    Memory.wfFrom lo (m.erase a) = true := by
  induction m with
  | nil => intro lo _; rfl
  | cons c m ih =>
    obtain ⟨k, w⟩ := c
    intro lo h
    simp only [Memory.wfFrom, Bool.and_eq_true, decide_eq_true_eq] at h
    unfold Memory.erase
    split
    · exact Memory.wfFrom_mono (ih h.2) (by omega)
    · simp only [Memory.wfFrom, Bool.and_eq_true, decide_eq_true_eq]
      exact ⟨h.1, ih h.2⟩

theorem Memory.wfFrom_insert {m : Memory} {a : Nat} {v : Byte} (ha : a < Config.memSize)
    (hv : v ≠ Memory.unlisted a) : ∀ {lo}, lo ≤ a → Memory.wfFrom lo (m.erase a) = true →
    Memory.wfFrom lo ((m.erase a).insert a v) = true := by
  induction m with
  | nil => intro lo hlo _; simp [Memory.erase, Memory.insert, Memory.wfFrom, hlo, ha, hv]
  | cons c m ih =>
    obtain ⟨k, w⟩ := c
    intro lo hlo h
    unfold Memory.erase at h ⊢
    split
    · rename_i hk; rw [if_pos hk] at h; exact ih hlo h
    · rename_i hk
      rw [if_neg hk] at h
      simp only [Memory.wfFrom, Bool.and_eq_true, decide_eq_true_eq] at h
      unfold Memory.insert
      split
      · simp only [Memory.wfFrom, Bool.and_eq_true, decide_eq_true_eq]
        exact ⟨⟨⟨hlo, ha⟩, hv⟩, ⟨⟨by omega, h.1.1.2⟩, h.1.2⟩, h.2⟩
      · simp only [Memory.wfFrom, Bool.and_eq_true, decide_eq_true_eq]
        exact ⟨h.1, ih (by omega) h.2⟩

/-- A write inside memory keeps the canonical form. -/
theorem Memory.write_wf {m : Memory} {a : Nat} (v : Byte) (h : m.wf = true) (ha : a < Config.memSize) :
    (m.write a v).wf = true := by
  unfold Memory.write
  split
  · exact Memory.wfFrom_erase a h
  · rename_i hv
    exact Memory.wfFrom_insert ha hv (Nat.zero_le a) (Memory.wfFrom_erase a h)

/-- A write of bytes that lie inside memory keeps the canonical form. -/
theorem Memory.writeBytes_wf (bs : List Byte) : ∀ {m : Memory} {a : Nat}, m.wf = true →
    a + bs.length ≤ Config.memSize → (m.writeBytes a bs).wf = true := by
  induction bs with
  | nil => intro m a h _; exact h
  | cons v vs ih =>
    intro m a h hlen
    simp only [List.length_cons] at hlen
    exact ih (Memory.write_wf v h (by omega)) (by omega)

end Sys2Proof.Machine
end

