-- ==== Sys2Proof/Laws/State.lean ====
section
/-! SUPPORT. One lemma per field per update of the state, true by `rfl`, so that no proof unfolds a record update; then the
register file read after a write. -/

namespace Sys2Proof.Machine

/-! `State.setReg`. -/

@[simp] theorem State.setReg_regs (s : State) (x : Nibble) (v : Byte) : (s.setReg x v).regs = s.regs.set x.toNat v x.isLt := rfl
@[simp] theorem State.setReg_index (s : State) (x : Nibble) (v : Byte) : (s.setReg x v).index = s.index := rfl
@[simp] theorem State.setReg_pc (s : State) (x : Nibble) (v : Byte) : (s.setReg x v).pc = s.pc := rfl
@[simp] theorem State.setReg_stack (s : State) (x : Nibble) (v : Byte) : (s.setReg x v).stack = s.stack := rfl
@[simp] theorem State.setReg_sp (s : State) (x : Nibble) (v : Byte) : (s.setReg x v).sp = s.sp := rfl
@[simp] theorem State.setReg_dt (s : State) (x : Nibble) (v : Byte) : (s.setReg x v).dt = s.dt := rfl
@[simp] theorem State.setReg_st (s : State) (x : Nibble) (v : Byte) : (s.setReg x v).st = s.st := rfl
@[simp] theorem State.setReg_mem (s : State) (x : Nibble) (v : Byte) : (s.setReg x v).mem = s.mem := rfl
@[simp] theorem State.setReg_fb (s : State) (x : Nibble) (v : Byte) : (s.setReg x v).fb = s.fb := rfl
@[simp] theorem State.setReg_keys (s : State) (x : Nibble) (v : Byte) : (s.setReg x v).keys = s.keys := rfl
@[simp] theorem State.setReg_last (s : State) (x : Nibble) (v : Byte) : (s.setReg x v).last = s.last := rfl
@[simp] theorem State.setReg_fault (s : State) (x : Nibble) (v : Byte) : (s.setReg x v).fault = s.fault := rfl
@[simp] theorem State.setReg_draws (s : State) (x : Nibble) (v : Byte) : (s.setReg x v).draws = s.draws := rfl

/-! `State.setFlag`. -/

@[simp] theorem State.setFlag_regs (s : State) (b : Bool) : (s.setFlag b).regs = s.regs.set 15 (flagByte b) := rfl
@[simp] theorem State.setFlag_index (s : State) (b : Bool) : (s.setFlag b).index = s.index := rfl
@[simp] theorem State.setFlag_pc (s : State) (b : Bool) : (s.setFlag b).pc = s.pc := rfl
@[simp] theorem State.setFlag_stack (s : State) (b : Bool) : (s.setFlag b).stack = s.stack := rfl
@[simp] theorem State.setFlag_sp (s : State) (b : Bool) : (s.setFlag b).sp = s.sp := rfl
@[simp] theorem State.setFlag_dt (s : State) (b : Bool) : (s.setFlag b).dt = s.dt := rfl
@[simp] theorem State.setFlag_st (s : State) (b : Bool) : (s.setFlag b).st = s.st := rfl
@[simp] theorem State.setFlag_mem (s : State) (b : Bool) : (s.setFlag b).mem = s.mem := rfl
@[simp] theorem State.setFlag_fb (s : State) (b : Bool) : (s.setFlag b).fb = s.fb := rfl
@[simp] theorem State.setFlag_keys (s : State) (b : Bool) : (s.setFlag b).keys = s.keys := rfl
@[simp] theorem State.setFlag_last (s : State) (b : Bool) : (s.setFlag b).last = s.last := rfl
@[simp] theorem State.setFlag_fault (s : State) (b : Bool) : (s.setFlag b).fault = s.fault := rfl
@[simp] theorem State.setFlag_draws (s : State) (b : Bool) : (s.setFlag b).draws = s.draws := rfl

/-! `State.setIndex`. -/

@[simp] theorem State.setIndex_regs (s : State) (v : Word) : (s.setIndex v).regs = s.regs := rfl
@[simp] theorem State.setIndex_index (s : State) (v : Word) : (s.setIndex v).index = v := rfl
@[simp] theorem State.setIndex_pc (s : State) (v : Word) : (s.setIndex v).pc = s.pc := rfl
@[simp] theorem State.setIndex_stack (s : State) (v : Word) : (s.setIndex v).stack = s.stack := rfl
@[simp] theorem State.setIndex_sp (s : State) (v : Word) : (s.setIndex v).sp = s.sp := rfl
@[simp] theorem State.setIndex_dt (s : State) (v : Word) : (s.setIndex v).dt = s.dt := rfl
@[simp] theorem State.setIndex_st (s : State) (v : Word) : (s.setIndex v).st = s.st := rfl
@[simp] theorem State.setIndex_mem (s : State) (v : Word) : (s.setIndex v).mem = s.mem := rfl
@[simp] theorem State.setIndex_fb (s : State) (v : Word) : (s.setIndex v).fb = s.fb := rfl
@[simp] theorem State.setIndex_keys (s : State) (v : Word) : (s.setIndex v).keys = s.keys := rfl
@[simp] theorem State.setIndex_last (s : State) (v : Word) : (s.setIndex v).last = s.last := rfl
@[simp] theorem State.setIndex_fault (s : State) (v : Word) : (s.setIndex v).fault = s.fault := rfl
@[simp] theorem State.setIndex_draws (s : State) (v : Word) : (s.setIndex v).draws = s.draws := rfl
@[simp] theorem State.setIndex_reg (s : State) (v : Word) (r : Nibble) : (s.setIndex v).reg r = s.reg r := rfl

/-! `State.setPc`. -/

@[simp] theorem State.setPc_regs (s : State) (v : Word) : (s.setPc v).regs = s.regs := rfl
@[simp] theorem State.setPc_index (s : State) (v : Word) : (s.setPc v).index = s.index := rfl
@[simp] theorem State.setPc_pc (s : State) (v : Word) : (s.setPc v).pc = v := rfl
@[simp] theorem State.setPc_stack (s : State) (v : Word) : (s.setPc v).stack = s.stack := rfl
@[simp] theorem State.setPc_sp (s : State) (v : Word) : (s.setPc v).sp = s.sp := rfl
@[simp] theorem State.setPc_dt (s : State) (v : Word) : (s.setPc v).dt = s.dt := rfl
@[simp] theorem State.setPc_st (s : State) (v : Word) : (s.setPc v).st = s.st := rfl
@[simp] theorem State.setPc_mem (s : State) (v : Word) : (s.setPc v).mem = s.mem := rfl
@[simp] theorem State.setPc_fb (s : State) (v : Word) : (s.setPc v).fb = s.fb := rfl
@[simp] theorem State.setPc_keys (s : State) (v : Word) : (s.setPc v).keys = s.keys := rfl
@[simp] theorem State.setPc_last (s : State) (v : Word) : (s.setPc v).last = s.last := rfl
@[simp] theorem State.setPc_fault (s : State) (v : Word) : (s.setPc v).fault = s.fault := rfl
@[simp] theorem State.setPc_draws (s : State) (v : Word) : (s.setPc v).draws = s.draws := rfl
@[simp] theorem State.setPc_reg (s : State) (v : Word) (r : Nibble) : (s.setPc v).reg r = s.reg r := rfl

/-! `State.setDelay`. -/

@[simp] theorem State.setDelay_regs (s : State) (v : Byte) : (s.setDelay v).regs = s.regs := rfl
@[simp] theorem State.setDelay_index (s : State) (v : Byte) : (s.setDelay v).index = s.index := rfl
@[simp] theorem State.setDelay_pc (s : State) (v : Byte) : (s.setDelay v).pc = s.pc := rfl
@[simp] theorem State.setDelay_stack (s : State) (v : Byte) : (s.setDelay v).stack = s.stack := rfl
@[simp] theorem State.setDelay_sp (s : State) (v : Byte) : (s.setDelay v).sp = s.sp := rfl
@[simp] theorem State.setDelay_dt (s : State) (v : Byte) : (s.setDelay v).dt = v := rfl
@[simp] theorem State.setDelay_st (s : State) (v : Byte) : (s.setDelay v).st = s.st := rfl
@[simp] theorem State.setDelay_mem (s : State) (v : Byte) : (s.setDelay v).mem = s.mem := rfl
@[simp] theorem State.setDelay_fb (s : State) (v : Byte) : (s.setDelay v).fb = s.fb := rfl
@[simp] theorem State.setDelay_keys (s : State) (v : Byte) : (s.setDelay v).keys = s.keys := rfl
@[simp] theorem State.setDelay_last (s : State) (v : Byte) : (s.setDelay v).last = s.last := rfl
@[simp] theorem State.setDelay_fault (s : State) (v : Byte) : (s.setDelay v).fault = s.fault := rfl
@[simp] theorem State.setDelay_draws (s : State) (v : Byte) : (s.setDelay v).draws = s.draws := rfl
@[simp] theorem State.setDelay_reg (s : State) (v : Byte) (r : Nibble) : (s.setDelay v).reg r = s.reg r := rfl

/-! `State.setSound`. -/

@[simp] theorem State.setSound_regs (s : State) (v : Byte) : (s.setSound v).regs = s.regs := rfl
@[simp] theorem State.setSound_index (s : State) (v : Byte) : (s.setSound v).index = s.index := rfl
@[simp] theorem State.setSound_pc (s : State) (v : Byte) : (s.setSound v).pc = s.pc := rfl
@[simp] theorem State.setSound_stack (s : State) (v : Byte) : (s.setSound v).stack = s.stack := rfl
@[simp] theorem State.setSound_sp (s : State) (v : Byte) : (s.setSound v).sp = s.sp := rfl
@[simp] theorem State.setSound_dt (s : State) (v : Byte) : (s.setSound v).dt = s.dt := rfl
@[simp] theorem State.setSound_st (s : State) (v : Byte) : (s.setSound v).st = v := rfl
@[simp] theorem State.setSound_mem (s : State) (v : Byte) : (s.setSound v).mem = s.mem := rfl
@[simp] theorem State.setSound_fb (s : State) (v : Byte) : (s.setSound v).fb = s.fb := rfl
@[simp] theorem State.setSound_keys (s : State) (v : Byte) : (s.setSound v).keys = s.keys := rfl
@[simp] theorem State.setSound_last (s : State) (v : Byte) : (s.setSound v).last = s.last := rfl
@[simp] theorem State.setSound_fault (s : State) (v : Byte) : (s.setSound v).fault = s.fault := rfl
@[simp] theorem State.setSound_draws (s : State) (v : Byte) : (s.setSound v).draws = s.draws := rfl
@[simp] theorem State.setSound_reg (s : State) (v : Byte) (r : Nibble) : (s.setSound v).reg r = s.reg r := rfl

/-! `State.setFb`. -/

@[simp] theorem State.setFb_regs (s : State) (g : Framebuffer) : (s.setFb g).regs = s.regs := rfl
@[simp] theorem State.setFb_index (s : State) (g : Framebuffer) : (s.setFb g).index = s.index := rfl
@[simp] theorem State.setFb_pc (s : State) (g : Framebuffer) : (s.setFb g).pc = s.pc := rfl
@[simp] theorem State.setFb_stack (s : State) (g : Framebuffer) : (s.setFb g).stack = s.stack := rfl
@[simp] theorem State.setFb_sp (s : State) (g : Framebuffer) : (s.setFb g).sp = s.sp := rfl
@[simp] theorem State.setFb_dt (s : State) (g : Framebuffer) : (s.setFb g).dt = s.dt := rfl
@[simp] theorem State.setFb_st (s : State) (g : Framebuffer) : (s.setFb g).st = s.st := rfl
@[simp] theorem State.setFb_mem (s : State) (g : Framebuffer) : (s.setFb g).mem = s.mem := rfl
@[simp] theorem State.setFb_fb (s : State) (g : Framebuffer) : (s.setFb g).fb = g := rfl
@[simp] theorem State.setFb_keys (s : State) (g : Framebuffer) : (s.setFb g).keys = s.keys := rfl
@[simp] theorem State.setFb_last (s : State) (g : Framebuffer) : (s.setFb g).last = s.last := rfl
@[simp] theorem State.setFb_fault (s : State) (g : Framebuffer) : (s.setFb g).fault = s.fault := rfl
@[simp] theorem State.setFb_draws (s : State) (g : Framebuffer) : (s.setFb g).draws = s.draws := rfl
@[simp] theorem State.setFb_reg (s : State) (g : Framebuffer) (r : Nibble) : (s.setFb g).reg r = s.reg r := rfl

/-! `State.setKey`. -/

@[simp] theorem State.setKey_regs (s : State) (k : Nibble) (b : Bool) : (s.setKey k b).regs = s.regs := rfl
@[simp] theorem State.setKey_index (s : State) (k : Nibble) (b : Bool) : (s.setKey k b).index = s.index := rfl
@[simp] theorem State.setKey_pc (s : State) (k : Nibble) (b : Bool) : (s.setKey k b).pc = s.pc := rfl
@[simp] theorem State.setKey_stack (s : State) (k : Nibble) (b : Bool) : (s.setKey k b).stack = s.stack := rfl
@[simp] theorem State.setKey_sp (s : State) (k : Nibble) (b : Bool) : (s.setKey k b).sp = s.sp := rfl
@[simp] theorem State.setKey_dt (s : State) (k : Nibble) (b : Bool) : (s.setKey k b).dt = s.dt := rfl
@[simp] theorem State.setKey_st (s : State) (k : Nibble) (b : Bool) : (s.setKey k b).st = s.st := rfl
@[simp] theorem State.setKey_mem (s : State) (k : Nibble) (b : Bool) : (s.setKey k b).mem = s.mem := rfl
@[simp] theorem State.setKey_fb (s : State) (k : Nibble) (b : Bool) : (s.setKey k b).fb = s.fb := rfl
@[simp] theorem State.setKey_keys (s : State) (k : Nibble) (b : Bool) : (s.setKey k b).keys = s.keys.set k.toNat b k.isLt := rfl
@[simp] theorem State.setKey_last (s : State) (k : Nibble) (b : Bool) : (s.setKey k b).last = s.last := rfl
@[simp] theorem State.setKey_fault (s : State) (k : Nibble) (b : Bool) : (s.setKey k b).fault = s.fault := rfl
@[simp] theorem State.setKey_draws (s : State) (k : Nibble) (b : Bool) : (s.setKey k b).draws = s.draws := rfl
@[simp] theorem State.setKey_reg (s : State) (k : Nibble) (b : Bool) (r : Nibble) : (s.setKey k b).reg r = s.reg r := rfl

/-! `State.store`. -/

@[simp] theorem State.store_regs (s : State) (a : Nat) (bs : List Byte) : (s.store a bs).regs = s.regs := rfl
@[simp] theorem State.store_index (s : State) (a : Nat) (bs : List Byte) : (s.store a bs).index = s.index := rfl
@[simp] theorem State.store_pc (s : State) (a : Nat) (bs : List Byte) : (s.store a bs).pc = s.pc := rfl
@[simp] theorem State.store_stack (s : State) (a : Nat) (bs : List Byte) : (s.store a bs).stack = s.stack := rfl
@[simp] theorem State.store_sp (s : State) (a : Nat) (bs : List Byte) : (s.store a bs).sp = s.sp := rfl
@[simp] theorem State.store_dt (s : State) (a : Nat) (bs : List Byte) : (s.store a bs).dt = s.dt := rfl
@[simp] theorem State.store_st (s : State) (a : Nat) (bs : List Byte) : (s.store a bs).st = s.st := rfl
@[simp] theorem State.store_mem (s : State) (a : Nat) (bs : List Byte) : (s.store a bs).mem = s.mem.writeBytes a bs := rfl
@[simp] theorem State.store_fb (s : State) (a : Nat) (bs : List Byte) : (s.store a bs).fb = s.fb := rfl
@[simp] theorem State.store_keys (s : State) (a : Nat) (bs : List Byte) : (s.store a bs).keys = s.keys := rfl
@[simp] theorem State.store_last (s : State) (a : Nat) (bs : List Byte) : (s.store a bs).last = s.last := rfl
@[simp] theorem State.store_fault (s : State) (a : Nat) (bs : List Byte) : (s.store a bs).fault = s.fault := rfl
@[simp] theorem State.store_draws (s : State) (a : Nat) (bs : List Byte) : (s.store a bs).draws = s.draws := rfl
@[simp] theorem State.store_reg (s : State) (a : Nat) (bs : List Byte) (r : Nibble) : (s.store a bs).reg r = s.reg r := rfl

/-! `State.latch`. -/

@[simp] theorem State.latch_regs (s : State) (f : Fault) : (s.latch f).regs = s.regs := rfl
@[simp] theorem State.latch_index (s : State) (f : Fault) : (s.latch f).index = s.index := rfl
@[simp] theorem State.latch_pc (s : State) (f : Fault) : (s.latch f).pc = s.pc := rfl
@[simp] theorem State.latch_stack (s : State) (f : Fault) : (s.latch f).stack = s.stack := rfl
@[simp] theorem State.latch_sp (s : State) (f : Fault) : (s.latch f).sp = s.sp := rfl
@[simp] theorem State.latch_dt (s : State) (f : Fault) : (s.latch f).dt = s.dt := rfl
@[simp] theorem State.latch_st (s : State) (f : Fault) : (s.latch f).st = s.st := rfl
@[simp] theorem State.latch_mem (s : State) (f : Fault) : (s.latch f).mem = s.mem := rfl
@[simp] theorem State.latch_fb (s : State) (f : Fault) : (s.latch f).fb = s.fb := rfl
@[simp] theorem State.latch_keys (s : State) (f : Fault) : (s.latch f).keys = s.keys := rfl
@[simp] theorem State.latch_last (s : State) (f : Fault) : (s.latch f).last = s.last := rfl
@[simp] theorem State.latch_fault (s : State) (f : Fault) : (s.latch f).fault = some f := rfl
@[simp] theorem State.latch_draws (s : State) (f : Fault) : (s.latch f).draws = s.draws := rfl
@[simp] theorem State.latch_reg (s : State) (f : Fault) (r : Nibble) : (s.latch f).reg r = s.reg r := rfl

/-! `State.countDraw`. -/

@[simp] theorem State.countDraw_regs (s : State) : (s.countDraw).regs = s.regs := rfl
@[simp] theorem State.countDraw_index (s : State) : (s.countDraw).index = s.index := rfl
@[simp] theorem State.countDraw_pc (s : State) : (s.countDraw).pc = s.pc := rfl
@[simp] theorem State.countDraw_stack (s : State) : (s.countDraw).stack = s.stack := rfl
@[simp] theorem State.countDraw_sp (s : State) : (s.countDraw).sp = s.sp := rfl
@[simp] theorem State.countDraw_dt (s : State) : (s.countDraw).dt = s.dt := rfl
@[simp] theorem State.countDraw_st (s : State) : (s.countDraw).st = s.st := rfl
@[simp] theorem State.countDraw_mem (s : State) : (s.countDraw).mem = s.mem := rfl
@[simp] theorem State.countDraw_fb (s : State) : (s.countDraw).fb = s.fb := rfl
@[simp] theorem State.countDraw_keys (s : State) : (s.countDraw).keys = s.keys := rfl
@[simp] theorem State.countDraw_last (s : State) : (s.countDraw).last = s.last := rfl
@[simp] theorem State.countDraw_fault (s : State) : (s.countDraw).fault = s.fault := rfl
@[simp] theorem State.countDraw_draws (s : State) : (s.countDraw).draws = s.draws + 1 := rfl
@[simp] theorem State.countDraw_reg (s : State) (r : Nibble) : (s.countDraw).reg r = s.reg r := rfl

/-! `State.fetched`. -/

@[simp] theorem State.fetched_regs (s : State) (w : Word) : (s.fetched w).regs = s.regs := rfl
@[simp] theorem State.fetched_index (s : State) (w : Word) : (s.fetched w).index = s.index := rfl
@[simp] theorem State.fetched_pc (s : State) (w : Word) : (s.fetched w).pc = s.pc + 2 := rfl
@[simp] theorem State.fetched_stack (s : State) (w : Word) : (s.fetched w).stack = s.stack := rfl
@[simp] theorem State.fetched_sp (s : State) (w : Word) : (s.fetched w).sp = s.sp := rfl
@[simp] theorem State.fetched_dt (s : State) (w : Word) : (s.fetched w).dt = s.dt := rfl
@[simp] theorem State.fetched_st (s : State) (w : Word) : (s.fetched w).st = s.st := rfl
@[simp] theorem State.fetched_mem (s : State) (w : Word) : (s.fetched w).mem = s.mem := rfl
@[simp] theorem State.fetched_fb (s : State) (w : Word) : (s.fetched w).fb = s.fb := rfl
@[simp] theorem State.fetched_keys (s : State) (w : Word) : (s.fetched w).keys = s.keys := rfl
@[simp] theorem State.fetched_last (s : State) (w : Word) : (s.fetched w).last = w := rfl
@[simp] theorem State.fetched_fault (s : State) (w : Word) : (s.fetched w).fault = s.fault := rfl
@[simp] theorem State.fetched_draws (s : State) (w : Word) : (s.fetched w).draws = s.draws := rfl
@[simp] theorem State.fetched_reg (s : State) (w : Word) (r : Nibble) : (s.fetched w).reg r = s.reg r := rfl

/-! `State.loadRun`. -/

@[simp] theorem State.loadRun_index (s : State) (x : Nibble) (a : Nat) : (s.loadRun x a).index = s.index := rfl
@[simp] theorem State.loadRun_pc (s : State) (x : Nibble) (a : Nat) : (s.loadRun x a).pc = s.pc := rfl
@[simp] theorem State.loadRun_stack (s : State) (x : Nibble) (a : Nat) : (s.loadRun x a).stack = s.stack := rfl
@[simp] theorem State.loadRun_sp (s : State) (x : Nibble) (a : Nat) : (s.loadRun x a).sp = s.sp := rfl
@[simp] theorem State.loadRun_dt (s : State) (x : Nibble) (a : Nat) : (s.loadRun x a).dt = s.dt := rfl
@[simp] theorem State.loadRun_st (s : State) (x : Nibble) (a : Nat) : (s.loadRun x a).st = s.st := rfl
@[simp] theorem State.loadRun_mem (s : State) (x : Nibble) (a : Nat) : (s.loadRun x a).mem = s.mem := rfl
@[simp] theorem State.loadRun_fb (s : State) (x : Nibble) (a : Nat) : (s.loadRun x a).fb = s.fb := rfl
@[simp] theorem State.loadRun_keys (s : State) (x : Nibble) (a : Nat) : (s.loadRun x a).keys = s.keys := rfl
@[simp] theorem State.loadRun_last (s : State) (x : Nibble) (a : Nat) : (s.loadRun x a).last = s.last := rfl
@[simp] theorem State.loadRun_fault (s : State) (x : Nibble) (a : Nat) : (s.loadRun x a).fault = s.fault := rfl
@[simp] theorem State.loadRun_draws (s : State) (x : Nibble) (a : Nat) : (s.loadRun x a).draws = s.draws := rfl

/-! The register file. -/

/-- A register read after a register write. -/
@[simp] theorem State.setReg_reg (s : State) (x : Nibble) (v : Byte) (r : Nibble) :
    (s.setReg x v).reg r = if r = x then v else s.reg r := by
  simp only [State.reg, State.setReg, Vector.getElem_set, BitVec.toNat_inj, eq_comm]

/-- A register read after a flag write. -/
@[simp] theorem State.setFlag_reg (s : State) (b : Bool) (r : Nibble) :
    (s.setFlag b).reg r = if r = 0xF#4 then flagByte b else s.reg r := by
  simp [State.setFlag]

/-- A register read after a block load: registers up to X come from memory, those above stay. -/
@[simp] theorem State.loadRun_reg (s : State) (x : Nibble) (a : Nat) (r : Nibble) :
    (s.loadRun x a).reg r = if r.toNat ≤ x.toNat then s.mem.read (a + r.toNat) else s.reg r := by
  simp only [State.reg, State.loadRun, Vector.getElem_ofFn, Fin.getElem_fin]

/-- A key read after a key write. -/
theorem State.setKey_keyDown (s : State) (k : Nibble) (b : Bool) (j : Nibble) :
    (s.setKey k b).keyDown j.toNat = if j = k then b else s.keyDown j.toNat := by
  have hj : j.toNat < 16 := j.isLt
  simp only [State.keyDown, State.setKey, Vector.getElem?_eq_getElem hj, Vector.getElem_set, Option.getD_some,
    BitVec.toNat_inj, eq_comm]

/-- A skip changes the program counter and nothing else. -/
theorem State.skipIf_eq (s : State) (b : Bool) : s.skipIf b = s.setPc (if b then s.pc + 2 else s.pc) := by
  cases b <;> rfl

end Sys2Proof.Machine
end

