-- ==== Sys2Proof/Laws/Ops.lean ====
section
/-! SUPPORT. One lemma per shared operation that says once everything it can do: the range check, a transfer, the byte read,
the fetch, push and pop, the key read, the key scan, and what a continued operation answers. -/

namespace Sys2Proof.Machine

/-- Taking a fault is a next state with the latch set. -/
theorem raise_eq (f : Fault) (s : State) : raise f s = .next (s.latch f) := rfl

/-- An operation that gave a state goes on with it. -/
@[simp] theorem settle_ok (s t : State) : settle s (.ok t) = .next t := rfl

/-- An operation that failed takes its fault in the state it was given. -/
@[simp] theorem settle_error (s : State) (f : Fault) : settle s (.error f) = .next (s.latch f) := rfl

/-! The range check. -/

/-- No fault: no bytes, or all of them below 4096. -/
theorem rangeFault_eq_none_iff (base len : Nat) : rangeFault base len = none ↔ len = 0 ∨ base + len ≤ 4096 := by
  unfold rangeFault Config.memSize
  split <;> simp <;> omega

/-- A fault: some byte at 4096 or above, and the record carries the lowest such address. -/
theorem rangeFault_eq_some_iff (base len : Nat) (f : Fault) :
    rangeFault base len = some f ↔ (0 < len ∧ 4096 < base + len) ∧ f = .memoryFault (max base 4096) := by
  unfold rangeFault Config.memSize
  split
  · simp only [Option.some.injEq]
    constructor
    · intro h; exact ⟨by omega, h.symm⟩
    · intro h; exact h.2.symm
  · simp only [reduceCtorEq, false_iff]
    intro h; omega

/-- A transfer answers the state it was given, or takes the fault of its range. -/
theorem transfer_cases (len : Nat) (t s : State) :
    (s.index.toNat + len ≤ 4096 ∨ len = 0) ∧ transfer len t s = .next t ∨
    (0 < len ∧ 4096 < s.index.toNat + len) ∧
      transfer len t s = .next (s.latch (.memoryFault (max s.index.toNat 4096))) := by
  unfold transfer effAddr
  cases h : rangeFault (s.index.toNat + 0) len with
  | none => exact .inl ⟨((rangeFault_eq_none_iff _ _).1 h).symm, rfl⟩
  | some f =>
    obtain ⟨hr, rfl⟩ := (rangeFault_eq_some_iff _ _ _).1 h
    exact .inr ⟨hr, rfl⟩

/-! Memory reads and the fetch. -/

/-- A byte read inside memory. -/
theorem State.memRead_inside (s : State) (a : Nat) (h : a < 4096) : s.memRead a = .ok (s.mem.read a) := by
  unfold State.memRead Config.memSize; rw [if_neg (by omega)]

/-- A byte read outside memory. -/
theorem State.memRead_outside (s : State) (a : Nat) (h : 4096 ≤ a) : s.memRead a = .error (.memoryFault a) := by
  unfold State.memRead Config.memSize; rw [if_pos h]

/-- A fetch with both bytes inside memory. -/
theorem State.fetch_inside (s : State) (h : s.pc.toNat + 1 < 4096) :
    s.fetch = .ok (s.wordAt s.pc.toNat, s.fetched (s.wordAt s.pc.toNat)) := by
  unfold State.fetch
  rw [s.memRead_inside _ (by omega), s.memRead_inside _ h]
  rfl

/-- A fetch with a byte outside memory carries the lowest address out of bounds. -/
theorem State.fetch_outside (s : State) (h : 4096 ≤ s.pc.toNat + 1) :
    s.fetch = .error (.memoryFault (max s.pc.toNat 4096)) := by
  unfold State.fetch
  by_cases hp : 4096 ≤ s.pc.toNat
  · rw [s.memRead_outside _ hp, Nat.max_eq_left hp]
  · have hmax : max s.pc.toNat 4096 = s.pc.toNat + 1 := by omega
    rw [s.memRead_inside _ (by omega), s.memRead_outside _ h, hmax]

/-! The call stack. -/

/-- A push: the pushed state, or the overflow of a full stack. -/
theorem State.push_cases (s : State) (v : Word) :
    (∃ h : s.sp.val < 16, s.push v =
      .ok { s with stack := s.stack.set s.sp.val v h, sp := ⟨s.sp.val + 1, Nat.succ_lt_succ h⟩ }) ∨
    s.sp.val = 16 ∧ s.push v = .error (.stackFault .overflow) := by
  unfold State.push
  have := s.sp.isLt
  split
  · exact .inl ⟨‹_›, rfl⟩
  · exact .inr ⟨by omega, rfl⟩

/-- A pop: the top entry and the state with `sp` lowered, or the underflow of an empty stack. -/
theorem State.pop_cases (s : State) :
    (∃ h : 0 < s.sp.val, s.pop = .ok (s.stack[s.sp.val - 1]'(by have := s.sp.isLt; omega),
      { s with sp := ⟨s.sp.val - 1, by have := s.sp.isLt; omega⟩ })) ∨
    s.sp.val = 0 ∧ s.pop = .error (.stackFault .underflow) := by
  unfold State.pop
  split
  · exact .inl ⟨‹_›, rfl⟩
  · exact .inr ⟨by omega, rfl⟩

/-! Keys. -/

/-- A key read with an index below 16. -/
theorem State.key_inside (s : State) (k : Byte) (h : k.toNat < 16) : s.key k = .ok (s.keyDown k.toNat) := by
  unfold State.key Config.numKeys; rw [if_neg (by omega)]

/-- A key read with an index of 16 or more. -/
theorem State.key_outside (s : State) (k : Byte) (h : 16 ≤ k.toNat) : s.key k = .error (.keyIndexFault k) := by
  unfold State.key Config.numKeys; rw [if_pos h]

/-- The scan finds a key: it is down and no smaller one is. -/
theorem State.lowestKey_eq_some (s : State) {k : Nat} (h : s.lowestKey = some k) :
    k < 16 ∧ s.keyDown k = true ∧ ∀ j, j < k → s.keyDown j = false := by
  unfold State.lowestKey Config.numKeys at h
  rw [List.find?_range_eq_some] at h
  exact ⟨List.mem_range.1 h.2.1, h.1, fun j hj => by simpa using h.2.2 j hj⟩

/-- The scan finds none: no key is down. -/
theorem State.lowestKey_eq_none (s : State) (h : s.lowestKey = none) (k : Nat) (hk : k < 16) : s.keyDown k = false := by
  unfold State.lowestKey Config.numKeys at h
  have := List.find?_eq_none.1 h k (List.mem_range.2 hk)
  simpa using this

/-! Register runs. -/

/-- The stored run has X + 1 bytes. -/
@[simp] theorem State.length_regRun (s : State) (x : Nibble) : (s.regRun x).length = x.toNat + 1 := by
  have : x.toNat < 16 := x.isLt
  simp only [State.regRun, List.length_take, Vector.length_toList]; omega

/-- The stored run's bytes are the registers in order. -/
theorem State.getElem?_regRun (s : State) (x r : Nibble) (h : r.toNat ≤ x.toNat) :
    (s.regRun x)[r.toNat]? = some (s.reg r) := by
  have hr : r.toNat < 16 := r.isLt
  simp [State.regRun, State.reg, Nat.lt_succ_of_le h, hr]

end Sys2Proof.Machine
end

