-- ==== Sys2Proof/Laws/Display.lean ====
section
/-! SUPPORT. Cells of the framebuffer after one XOR and after a clear, and what one pixel, one row and all rows of a draw do. -/

namespace Sys2Proof.Machine

/-- A cell after one cell was toggled: that cell is inverted, every other is as before (R181). -/
@[simp] theorem Framebuffer.get_toggle (fb : Framebuffer) (y v : Fin 32) (x u : Fin 64) :
    (Framebuffer.toggle fb y x).get v u = if v = y ∧ u = x then !(Framebuffer.get fb y x) else Framebuffer.get fb v u := by
  simp only [Framebuffer.get, Framebuffer.toggle, Fin.getElem_fin, Vector.getElem_set, ← Fin.ext_iff]
  by_cases hv : v = y
  · subst hv
    by_cases hu : u = x
    · subst hu; simp
    · simp [hu, Ne.symm hu, Fin.val_inj]
  · simp [hv, Ne.symm hv]

/-- A cell of the cleared framebuffer is off (R180). -/
@[simp] theorem Framebuffer.get_blank (y : Fin 32) (x : Fin 64) : Framebuffer.blank.get y x = false := by
  simp [Framebuffer.get, Framebuffer.blank]

/-- One pixel drawn: its cell is inverted, and the collision is noted exactly where it was on (R181). -/
@[simp] theorem drawPixel_get (c : Canvas) (y v : Fin 32) (x u : Fin 64) :
    (drawPixel c y x).fb.get v u = if v = y ∧ u = x then !(c.fb.get y x) else c.fb.get v u :=
  Framebuffer.get_toggle c.fb y v x u

@[simp] theorem drawPixel_collision (c : Canvas) (y : Fin 32) (x : Fin 64) :
    (drawPixel c y x).collision = (c.collision || c.fb.get y x) := rfl

/-- Two framebuffers with the same cells are the same. -/
theorem Framebuffer.ext_get {f g : Framebuffer} (h : ∀ y x, f.get y x = g.get y x) : f = g := by
  apply Vector.ext; intro y hy
  apply Vector.ext; intro x hx
  exact h ⟨y, hy⟩ ⟨x, hx⟩

/-- What `DXYN` does, said once: it draws and writes the flag last, or takes the fault of its range. -/
theorem execDrw_cases (x y n : Nibble) (s : State) :
    (s.index.toNat + n.toNat ≤ 4096 ∨ n.toNat = 0) ∧
      execDrw x y n s = .next ((s.setFb (s.draw x y n).fb).setFlag (s.draw x y n).collision) ∨
    (0 < n.toNat ∧ 4096 < s.index.toNat + n.toNat) ∧
      execDrw x y n s = .next (s.latch (.memoryFault (max s.index.toNat 4096))) := by
  unfold execDrw effAddr
  cases h : rangeFault (s.index.toNat + 0) n.toNat with
  | none => exact .inl ⟨((rangeFault_eq_none_iff _ _).1 h).symm, rfl⟩
  | some f =>
    obtain ⟨hr, rfl⟩ := (rangeFault_eq_some_iff _ _ _).1 h
    exact .inr ⟨hr, rfl⟩

/-! A draw in closed form. -/

/-- The set bits of `k` columns from `column` on, of one sprite row, fall on the cell in row `v` and column `u`. -/
def columnsCover (vx vy byte : Byte) (row column k : Nat) (v : Fin 32) (u : Fin 64) : Prop :=
  v = pixelY vy row ∧ ∃ c, column ≤ c ∧ c < column + k ∧ spriteBit byte c = true ∧ u = pixelX vx c

/-- Different columns of a sprite fall on different columns of the framebuffer. -/
theorem pixelX_inj {vx : Byte} {a b : Nat} (ha : a < 64) (hb : b < 64) (h : pixelX vx a = pixelX vx b) : a = b := by
  have := congrArg Fin.val h; simp at this; omega

/-- Different rows of a sprite fall on different rows of the framebuffer. -/
theorem pixelY_inj {vx : Byte} {a b : Nat} (ha : a < 32) (hb : b < 32) (h : pixelY vx a = pixelY vx b) : a = b := by
  have := congrArg Fin.val h; simp at this; omega

/-- Everything the columns of one row do: covered cells are inverted, the others stay, and a collision is noted exactly where a
covered cell was on (R181). -/
theorem drawColumns_spec (vx vy byte : Byte) (row : Nat) (k : Nat) : ∀ (column : Nat) (c : Canvas), column + k ≤ 64 →
    (∀ v u, (columnsCover vx vy byte row column k v u →
        (drawColumns vx vy byte row k column c).fb.get v u = !(c.fb.get v u)) ∧
      (¬ columnsCover vx vy byte row column k v u →
        (drawColumns vx vy byte row k column c).fb.get v u = c.fb.get v u)) ∧
    ((drawColumns vx vy byte row k column c).collision = true ↔
      c.collision = true ∨ ∃ v u, columnsCover vx vy byte row column k v u ∧ c.fb.get v u = true) := by
  induction k with
  | zero =>
    intro column c _
    simp only [drawColumns, columnsCover]
    refine ⟨fun v u => ⟨?_, fun _ => trivial⟩, ?_⟩
    · rintro ⟨_, c', h1, h2, _⟩; omega
    · constructor
      · exact .inl
      · rintro (h | ⟨v, u, ⟨_, c', h1, h2, _⟩, _⟩)
        · exact h
        · omega
  | succ k ih =>
    intro column c hk
    simp only [drawColumns]
    obtain ⟨ihf, ihc⟩ := ih (column+1) (if spriteBit byte column then drawPixel c (pixelY vy row) (pixelX vx column) else c) (by omega)
    by_cases hb : spriteBit byte column = true
    · simp only [hb, if_true] at ihf ihc ⊢
      have hself : ¬ columnsCover vx vy byte row (column+1) k (pixelY vy row) (pixelX vx column) := by
        rintro ⟨_, c', h1, h2, _, h4⟩
        have := pixelX_inj (by omega) (by omega) h4
        omega
      have hsplit : ∀ v u, columnsCover vx vy byte row column (k+1) v u ↔
        (v = pixelY vy row ∧ u = pixelX vx column) ∨ columnsCover vx vy byte row (column+1) k v u := by
        intro v u
        constructor
        · rintro ⟨h0, c', h1, h2, h3, h4⟩
          by_cases hc : c' = column
          · subst hc; exact .inl ⟨h0, h4⟩
          · exact .inr ⟨h0, c', by omega, by omega, h3, h4⟩
        · rintro (⟨rfl, rfl⟩ | ⟨h0, c', h1, h2, h3, h4⟩)
          · exact ⟨rfl, column, by omega, by omega, hb, rfl⟩
          · exact ⟨h0, c', by omega, by omega, h3, h4⟩
      refine ⟨fun v u => ⟨fun h => ?_, fun h => ?_⟩, ?_⟩
      · rcases (hsplit v u).1 h with ⟨rfl, rfl⟩ | h'
        · rw [(ihf _ _).2 hself]; simp
        · rw [(ihf _ _).1 h', drawPixel_get, if_neg]
          rintro ⟨rfl, rfl⟩; exact hself h'
      · rw [hsplit] at h
        rw [(ihf _ _).2 (fun h' => h (.inr h')), drawPixel_get, if_neg (fun h' => h (.inl h'))]
      · rw [ihc, drawPixel_collision, Bool.or_eq_true]
        constructor
        · rintro ((h | h) | ⟨v, u, h, h'⟩)
          · exact .inl h
          · exact .inr ⟨_, _, (hsplit _ _).2 (.inl ⟨rfl, rfl⟩), h⟩
          · refine .inr ⟨v, u, (hsplit _ _).2 (.inr h), ?_⟩
            rw [drawPixel_get, if_neg] at h'
            · exact h'
            · rintro ⟨rfl, rfl⟩; exact hself h
        · rintro (h | ⟨v, u, h, h'⟩)
          · exact .inl (.inl h)
          · rcases (hsplit _ _).1 h with ⟨rfl, rfl⟩ | h
            · exact .inl (.inr h')
            · refine .inr ⟨v, u, h, ?_⟩
              rw [drawPixel_get, if_neg]
              · exact h'
              · rintro ⟨rfl, rfl⟩; exact hself h
    · simp only [hb] at ihf ihc ⊢
      have hsplit : ∀ v u, columnsCover vx vy byte row column (k+1) v u ↔
        columnsCover vx vy byte row (column+1) k v u := by
        intro v u
        constructor
        · rintro ⟨h0, c', h1, h2, h3, h4⟩
          by_cases hc : c' = column
          · subst hc; exact absurd h3 hb
          · exact ⟨h0, c', by omega, by omega, h3, h4⟩
        · rintro ⟨h0, c', h1, h2, h3, h4⟩
          exact ⟨h0, c', by omega, by omega, h3, h4⟩
      simp only [hsplit]
      exact ⟨ihf, ihc⟩

/-- The set bits of the sprite rows from `row` on fall on the cell in row `v` and column `u`. -/
def rowsCover (vx vy : Byte) (row : Nat) (bytes : List Byte) (v : Fin 32) (u : Fin 64) : Prop :=
  ∃ j byte, bytes[j]? = some byte ∧ columnsCover vx vy byte (row + j) 0 8 v u

/-- Everything the rows of a sprite do: covered cells are inverted, the others stay, and a collision is noted exactly where a
covered cell was on (R181). -/
theorem drawRows_spec (vx vy : Byte) (bytes : List Byte) : ∀ (row : Nat) (c : Canvas), row + bytes.length ≤ 32 →
    (∀ v u, (rowsCover vx vy row bytes v u →
        (drawRows vx vy row bytes c).fb.get v u = !(c.fb.get v u)) ∧
      (¬ rowsCover vx vy row bytes v u →
        (drawRows vx vy row bytes c).fb.get v u = c.fb.get v u)) ∧
    ((drawRows vx vy row bytes c).collision = true ↔
      c.collision = true ∨ ∃ v u, rowsCover vx vy row bytes v u ∧ c.fb.get v u = true) := by
  induction bytes with
  | nil => intro row c _; simp [drawRows, rowsCover]
  | cons b bs ih =>
    intro row c hl
    simp only [List.length_cons] at hl
    simp only [drawRows]
    obtain ⟨cf, cc⟩ := drawColumns_spec vx vy b row 8 0 c (by omega)
    obtain ⟨rf, rc⟩ := ih (row+1) (drawColumns vx vy b row 8 0 c) (by omega)
    have hsplit : ∀ v u, rowsCover vx vy row (b :: bs) v u ↔
        columnsCover vx vy b row 0 8 v u ∨ rowsCover vx vy (row+1) bs v u := by
      intro v u
      constructor
      · rintro ⟨j, y, h1, h2⟩
        cases j with
        | zero => simp at h1; subst h1; exact .inl h2
        | succ j => simp at h1; exact .inr ⟨j, y, h1, by rw [show row + 1 + j = row + (j+1) by omega]; exact h2⟩
      · rintro (h | ⟨j, y, h1, h2⟩)
        · exact ⟨0, b, rfl, h⟩
        · exact ⟨j+1, y, by simpa using h1, by rw [show row + (j+1) = row + 1 + j by omega]; exact h2⟩
    have hdisj : ∀ v u, columnsCover vx vy b row 0 8 v u → ¬ rowsCover vx vy (row+1) bs v u := by
      rintro v u ⟨h0, _⟩ ⟨j, y, h1, h2, _⟩
      have hj : j < bs.length := (List.getElem?_eq_some_iff.1 h1).1
      have := pixelY_inj (by omega) (by omega) (h0.symm.trans h2)
      omega
    refine ⟨fun v u => ⟨fun h => ?_, fun h => ?_⟩, ?_⟩
    · rcases (hsplit v u).1 h with h' | h'
      · rw [(rf _ _).2 (hdisj _ _ h'), (cf _ _).1 h']
      · rw [(rf _ _).1 h', (cf _ _).2 (fun h'' => hdisj _ _ h'' h')]
    · rw [hsplit] at h
      rw [(rf _ _).2 (fun h' => h (.inr h')), (cf _ _).2 (fun h' => h (.inl h'))]
    · rw [rc, cc]
      constructor
      · rintro ((h | ⟨v, u, h, h'⟩) | ⟨v, u, h, h'⟩)
        · exact .inl h
        · exact .inr ⟨v, u, (hsplit _ _).2 (.inl h), h'⟩
        · refine .inr ⟨v, u, (hsplit _ _).2 (.inr h), ?_⟩
          rwa [(cf _ _).2 (fun h'' => hdisj _ _ h'' h)] at h'
      · rintro (h | ⟨v, u, h, h'⟩)
        · exact .inl (.inl h)
        · rcases (hsplit _ _).1 h with h | h
          · exact .inl (.inr ⟨v, u, h, h'⟩)
          · refine .inr ⟨v, u, h, ?_⟩
            rwa [(cf _ _).2 (fun h'' => hdisj _ _ h'' h)]

end Sys2Proof.Machine
end

