-- ==== Sys2Proof/Laws/Exec.lean ====
section
/-! SUPPORT. What an instruction does to the fault latch, said once for all instructions; and what the
shared parts of the arithmetic instructions do to the registers. -/

namespace Sys2Proof.Machine

/-- A core is not halted exactly when it runs. -/
theorem State.halted_eq_false_iff {s : State} : s.halted = false ↔ s.running := by
  unfold State.halted State.running; cases s.fault <;> simp

/-- What an instruction does to the latch, said once: it answers a next state that has the latch as it was, or it latches the one
fault its rule names and changes nothing else (R236, R237). -/
theorem exec_latch (i : Instr) (s : State) :
    ∃ t, exec i s = .next t ∧ (t.fault = s.fault ∨ ∃ f, t = s.latch f ∧
      (((∃ nnn, i = .call nnn) ∧ f = .stackFault .overflow ∧ s.sp.val = 16) ∨
        (i = .ret ∧ f = .stackFault .underflow ∧ s.sp.val = 0) ∨
        (((∃ x y n, i = .drw x y n) ∨ (∃ x, i = .bcd x ∨ i = .stm x ∨ i = .ldm x)) ∧
          f = .memoryFault (max s.index.toNat 4096)) ∨
        (∃ x, (i = .skp x ∨ i = .sknp x) ∧ f = .keyIndexFault (s.reg x) ∧ 16 ≤ (s.reg x).toNat))) := by
  cases i
  case ret =>
    obtain ⟨h', hp⟩ | ⟨h', hp⟩ := s.pop_cases
    · have := show exec .ret s = .next _ by simp only [exec, execRet, hp]; rfl
      exact ⟨_, this, .inl rfl⟩
    · exact ⟨_, by simp only [exec, execRet, hp]; rfl, .inr ⟨_, rfl, .inr (.inl ⟨rfl, rfl, h'⟩)⟩⟩
  case call nnn =>
    obtain ⟨h', hp⟩ | ⟨h', hp⟩ := s.push_cases s.pc
    · have := show exec (.call nnn) s = .next _ by simp only [exec, execCall, hp]; rfl
      exact ⟨_, this, .inl rfl⟩
    · exact ⟨_, by simp only [exec, execCall, hp]; rfl, .inr ⟨_, rfl, .inl ⟨⟨_, rfl⟩, rfl, h'⟩⟩⟩
  case sei => exact ⟨_, rfl, .inl (by rw [State.skipIf_eq]; rfl)⟩
  case snei => exact ⟨_, rfl, .inl (by rw [State.skipIf_eq]; rfl)⟩
  case ser => exact ⟨_, rfl, .inl (by rw [State.skipIf_eq]; rfl)⟩
  case sner => exact ⟨_, rfl, .inl (by rw [State.skipIf_eq]; rfl)⟩
  case skp x =>
    by_cases h : (s.reg x).toNat < 16
    · exact ⟨_, by simp only [exec, execSkp, s.key_inside _ h]; rfl,
        .inl (by show (State.skipIf _ _).fault = _; rw [State.skipIf_eq]; rfl)⟩
    · exact ⟨_, by simp only [exec, execSkp, s.key_outside _ (Nat.le_of_not_lt h)]; rfl,
        .inr ⟨_, rfl, .inr (.inr (.inr ⟨x, .inl rfl, rfl, by omega⟩))⟩⟩
  case sknp x =>
    by_cases h : (s.reg x).toNat < 16
    · exact ⟨_, by simp only [exec, execSknp, s.key_inside _ h]; rfl,
        .inl (by show (State.skipIf _ _).fault = _; rw [State.skipIf_eq]; rfl)⟩
    · exact ⟨_, by simp only [exec, execSknp, s.key_outside _ (Nat.le_of_not_lt h)]; rfl,
        .inr ⟨_, rfl, .inr (.inr (.inr ⟨x, .inr rfl, rfl, by omega⟩))⟩⟩
  case wkey x =>
    simp only [exec, execWkey]
    split
    · exact ⟨_, rfl, .inl rfl⟩
    · exact ⟨_, rfl, .inl rfl⟩
  case bcd x =>
    obtain ⟨_, hp⟩ | ⟨_, hp⟩ := transfer_cases 3 (s.store (effAddr s.index 0) (decimalDigits (s.reg x))) s
    · exact ⟨_, hp, .inl rfl⟩
    · exact ⟨_, hp, .inr ⟨_, rfl, .inr (.inr (.inl ⟨.inr ⟨x, .inl rfl⟩, rfl⟩))⟩⟩
  case stm x =>
    obtain ⟨_, hp⟩ | ⟨_, hp⟩ := transfer_cases (x.toNat+1) (s.store (effAddr s.index 0) (s.regRun x)) s
    · exact ⟨_, hp, .inl rfl⟩
    · exact ⟨_, hp, .inr ⟨_, rfl, .inr (.inr (.inl ⟨.inr ⟨x, .inr (.inl rfl)⟩, rfl⟩))⟩⟩
  case ldm x =>
    obtain ⟨_, hp⟩ | ⟨_, hp⟩ := transfer_cases (x.toNat+1) (s.loadRun x (effAddr s.index 0)) s
    · exact ⟨_, hp, .inl rfl⟩
    · exact ⟨_, hp, .inr ⟨_, rfl, .inr (.inr (.inl ⟨.inr ⟨x, .inr (.inr rfl)⟩, rfl⟩))⟩⟩
  case drw x y n =>
    obtain ⟨_, hp⟩ | ⟨_, hp⟩ := execDrw_cases x y n s
    · exact ⟨_, hp, .inl rfl⟩
    · exact ⟨_, hp, .inr ⟨_, rfl, .inr (.inr (.inl ⟨.inl ⟨x, y, n, rfl⟩, rfl⟩))⟩⟩
  all_goals exact ⟨_, rfl, .inl rfl⟩

/-! The shared parts of the arithmetic instructions: each changes registers only. -/

theorem resultThenFlag_frame (x : Nibble) (v : Byte) (b : Bool) (s : State) :
    resultThenFlag x v b s = { s with regs := (resultThenFlag x v b s).regs } := rfl

/-- A result and then the flag: with X = 0xF the flag stays. -/
@[simp] theorem resultThenFlag_reg (x : Nibble) (v : Byte) (b : Bool) (s : State) (r : Nibble) :
    (resultThenFlag x v b s).reg r = if r = 0xF#4 then flagByte b else if r = x then v else s.reg r := by
  simp [resultThenFlag]

theorem flagThenShift_frame (x : Nibble) (b : Bool) (shift : Byte → Byte) (s : State) :
    flagThenShift x b shift s = { s with regs := (flagThenShift x b shift s).regs } := rfl

/-- The flag and then the shift: with X = 0xF it is the flag that is shifted. -/
@[simp] theorem flagThenShift_reg (x : Nibble) (b : Bool) (shift : Byte → Byte) (s : State) (r : Nibble) :
    (flagThenShift x b shift s).reg r =
      if r = x then shift (if x = 0xF#4 then flagByte b else s.reg x)
      else if r = 0xF#4 then flagByte b else s.reg r := by
  simp [flagThenShift]

theorem randomInto_frame (x : Nibble) (nn v : Byte) (s : State) :
    randomInto x nn v s = { s with regs := (randomInto x nn v s).regs } := rfl

@[simp] theorem randomInto_reg (x : Nibble) (nn v : Byte) (s : State) (r : Nibble) :
    (randomInto x nn v s).reg r = if r = x then v &&& nn else s.reg r := by
  simp [randomInto]

end Sys2Proof.Machine
end

