-- ==== Sys2Proof/Laws/PerInstr.lean ====
section
/-! SUPPORT. The family `TableRow`: for every instruction, its encoding lies in its own row of the opcode map
(spec/30_encoding.md R96), one lemma per constructor. -/

namespace Sys2Proof.Laws.TableRow

/-- The encoding, masked, is the row's match value, and the row stands in the opcode map. -/
def Statement (i : Instr) : Prop := encode i &&& i.row.1 = i.row.2 ∧ i.row ∈ opcodeRows

theorem nop : Statement .nop := ⟨by decide, by decide⟩
theorem cls : Statement .cls := ⟨by decide, by decide⟩
theorem ret : Statement .ret := ⟨by decide, by decide⟩
theorem jp (nnn : Addr) : Statement (.jp nnn) := ⟨formatA_and_mask _ _, by simp [Instr.row, opcodeRows]⟩
theorem call (nnn : Addr) : Statement (.call nnn) := ⟨formatA_and_mask _ _, by simp [Instr.row, opcodeRows]⟩
theorem sei (x : Nibble) (nn : Byte) : Statement (.sei x nn) :=
  ⟨formatI_and_mask _ _ _, by simp [Instr.row, opcodeRows]⟩
theorem snei (x : Nibble) (nn : Byte) : Statement (.snei x nn) :=
  ⟨formatI_and_mask _ _ _, by simp [Instr.row, opcodeRows]⟩
theorem ser (x y : Nibble) : Statement (.ser x y) := ⟨formatR_and_mask_low _ _ _ _, by simp [Instr.row, opcodeRows]⟩
theorem ldi (x : Nibble) (nn : Byte) : Statement (.ldi x nn) :=
  ⟨formatI_and_mask _ _ _, by simp [Instr.row, opcodeRows]⟩
theorem addi (x : Nibble) (nn : Byte) : Statement (.addi x nn) :=
  ⟨formatI_and_mask _ _ _, by simp [Instr.row, opcodeRows]⟩
theorem mov (x y : Nibble) : Statement (.mov x y) := ⟨formatR_and_mask_low _ _ _ _, by simp [Instr.row, opcodeRows]⟩
theorem or (x y : Nibble) : Statement (.or x y) := ⟨formatR_and_mask_low _ _ _ _, by simp [Instr.row, opcodeRows]⟩
theorem and (x y : Nibble) : Statement (.and x y) := ⟨formatR_and_mask_low _ _ _ _, by simp [Instr.row, opcodeRows]⟩
theorem xor (x y : Nibble) : Statement (.xor x y) := ⟨formatR_and_mask_low _ _ _ _, by simp [Instr.row, opcodeRows]⟩
theorem add (x y : Nibble) : Statement (.add x y) := ⟨formatR_and_mask_low _ _ _ _, by simp [Instr.row, opcodeRows]⟩
theorem sub (x y : Nibble) : Statement (.sub x y) := ⟨formatR_and_mask_low _ _ _ _, by simp [Instr.row, opcodeRows]⟩
theorem shr (x y : Nibble) : Statement (.shr x y) := ⟨formatR_and_mask_low _ _ _ _, by simp [Instr.row, opcodeRows]⟩
theorem subn (x y : Nibble) : Statement (.subn x y) := ⟨formatR_and_mask_low _ _ _ _, by simp [Instr.row, opcodeRows]⟩
theorem shl (x y : Nibble) : Statement (.shl x y) := ⟨formatR_and_mask_low _ _ _ _, by simp [Instr.row, opcodeRows]⟩
theorem sner (x y : Nibble) : Statement (.sner x y) := ⟨formatR_and_mask_low _ _ _ _, by simp [Instr.row, opcodeRows]⟩
theorem seti (nnn : Addr) : Statement (.seti nnn) := ⟨formatA_and_mask _ _, by simp [Instr.row, opcodeRows]⟩
theorem jpv0 (nnn : Addr) : Statement (.jpv0 nnn) := ⟨formatA_and_mask _ _, by simp [Instr.row, opcodeRows]⟩
theorem rnd (x : Nibble) (nn : Byte) : Statement (.rnd x nn) :=
  ⟨formatI_and_mask _ _ _, by simp [Instr.row, opcodeRows]⟩
theorem drw (x y n : Nibble) : Statement (.drw x y n) := ⟨formatR_and_mask _ _ _ _, by simp [Instr.row, opcodeRows]⟩
theorem skp (x : Nibble) : Statement (.skp x) := ⟨formatI_and_mask_low _ _ _, by simp [Instr.row, opcodeRows]⟩
theorem sknp (x : Nibble) : Statement (.sknp x) := ⟨formatI_and_mask_low _ _ _, by simp [Instr.row, opcodeRows]⟩
theorem getdt (x : Nibble) : Statement (.getdt x) := ⟨formatI_and_mask_low _ _ _, by simp [Instr.row, opcodeRows]⟩
theorem wkey (x : Nibble) : Statement (.wkey x) := ⟨formatI_and_mask_low _ _ _, by simp [Instr.row, opcodeRows]⟩
theorem setdt (x : Nibble) : Statement (.setdt x) := ⟨formatI_and_mask_low _ _ _, by simp [Instr.row, opcodeRows]⟩
theorem setst (x : Nibble) : Statement (.setst x) := ⟨formatI_and_mask_low _ _ _, by simp [Instr.row, opcodeRows]⟩
theorem addix (x : Nibble) : Statement (.addix x) := ⟨formatI_and_mask_low _ _ _, by simp [Instr.row, opcodeRows]⟩
theorem glyph (x : Nibble) : Statement (.glyph x) := ⟨formatI_and_mask_low _ _ _, by simp [Instr.row, opcodeRows]⟩
theorem bcd (x : Nibble) : Statement (.bcd x) := ⟨formatI_and_mask_low _ _ _, by simp [Instr.row, opcodeRows]⟩
theorem stm (x : Nibble) : Statement (.stm x) := ⟨formatI_and_mask_low _ _ _, by simp [Instr.row, opcodeRows]⟩
theorem ldm (x : Nibble) : Statement (.ldm x) := ⟨formatI_and_mask_low _ _ _, by simp [Instr.row, opcodeRows]⟩

end Sys2Proof.Laws.TableRow
end

