-- ==== Sys2Proof/Laws/Step.lean ====
section
/-! SUPPORT. What one step can do, said once, and that a placed word is the one the next step runs. -/

namespace Sys2Proof.Machine

/-- The word at an address is big-endian: the byte at that address is the high one (R62). -/
theorem State.wordAt_toNat (s : State) (a : Nat) :
    (s.wordAt a).toNat = 256 * (s.mem.read a).toNat + (s.mem.read (a + 1)).toNat :=
  wordOfBytes_toNat _ _

/-- One step does one of four things: a halted core stays; a fetch out of bounds is latched; an unknown word is latched with
the fetch's effects; a known word is executed from the state the fetch left. -/
theorem step_cases (s : State) :
    (s.halted = true ∧ step s = .next s) ∨
    (s.halted = false ∧ 4096 ≤ s.pc.toNat + 1 ∧ step s = .next (s.latch (.memoryFault (max s.pc.toNat 4096)))) ∨
    (s.halted = false ∧ s.pc.toNat + 1 < 4096 ∧ decode (s.wordAt s.pc.toNat) = none ∧
      step s = .next ((s.fetched (s.wordAt s.pc.toNat)).latch (.decodeError (s.wordAt s.pc.toNat)))) ∨
    (∃ i, s.halted = false ∧ s.pc.toNat + 1 < 4096 ∧ decode (s.wordAt s.pc.toNat) = some i ∧
      step s = exec i (s.fetched (s.wordAt s.pc.toNat))) := by
  unfold step tick
  cases hh : s.halted with
  | true => exact .inl ⟨rfl, rfl⟩
  | false =>
    refine .inr ?_
    by_cases hp : s.pc.toNat + 1 < 4096
    · refine .inr ?_
      rw [s.fetch_inside hp]
      cases hd : decode (s.wordAt s.pc.toNat) with
      | none => exact .inl ⟨rfl, hp, rfl, by simp [runWord, hd, raise_eq]⟩
      | some i => exact .inr ⟨i, rfl, hp, rfl, by simp [runWord, hd]⟩
    · rw [s.fetch_outside (by omega)]
      exact .inl ⟨rfl, by omega, rfl⟩

/-- A placed word is the word the next fetch reads, in every state. -/
theorem State.withFetchWord_wordAt (s : State) (nbits w : Nat) :
    (s.withFetchWord nbits w).wordAt (s.withFetchWord nbits w).pc.toNat = tableWord nbits w := by
  simp [State.wordAt, State.withFetchWord, State.withWord, Memory.read_writeBytes]

/-- A placed word that decodes is what the next step executes, in every state. -/
theorem step_withFetchWord (s : State) (nbits w : Nat) (i : Instr) (h : decode (tableWord nbits w) = some i) :
    step (s.withFetchWord nbits w) = exec i ((s.withFetchWord nbits w).fetched (tableWord nbits w)) := by
  have hw := s.withFetchWord_wordAt nbits w
  have hp : (s.withFetchWord nbits w).pc.toNat + 1 < 4096 := by
    unfold State.withFetchWord State.withWord
    by_cases hs : s.pc.toNat + 1 < Config.memSize
    · simp only [hs, if_true]; exact hs
    · simp only [hs, if_false]; decide
  have hh : (s.withFetchWord nbits w).halted = false := rfl
  obtain ⟨h1, -⟩ | ⟨-, h2, -⟩ | ⟨-, -, h3, -⟩ | ⟨j, -, -, h4, h5⟩ := step_cases (s.withFetchWord nbits w)
  · rw [hh] at h1; cases h1
  · omega
  · rw [hw, h] at h3; cases h3
  · rw [hw] at h4 h5
    rw [h] at h4
    cases h4
    exact h5

end Sys2Proof.Machine
end

