-- ==== Sys2Proof/Tests/Slice0.lean ====
section
/-! SUPPORT. Tests and witnesses. Expected values come from the spec: words written out from 30_encoding.md R96, and the vectors of
95_test_vectors.md, named in each comment (V, A, M, G, K, X, H; Part 2 of that file). Each witness shows a concrete state that
meets the hypotheses of one statement. -/

open Sys2Proof Sys2Proof.Machine

namespace Sys2Proof.Tests

/-! Helpers. -/

/-- What a step or a meaning that went on left in one item. -/
def after {α : Type} (o : Result) (f : State → α) : Option α :=
  match o with
  | .next t => some (f t)
  | _ => none

/-- The reset state with some registers set. -/
def withRegs (rs : List (Nibble × Byte)) : State := rs.foldl (fun s r => s.setReg r.1 r.2) State.reset

/-- The reset state with `fb(x, y)` on for the listed cells. -/
def withCells (s : State) (cells : List (Fin 64 × Fin 32)) : State :=
  { s with fb := cells.foldl (fun fb c => fb.toggle c.2 c.1) s.fb }

/-- One tick of the word `w` placed at the program counter. -/
def tickOf (w : Nat) (s : State) : Result := step (s.withFetchWord 16 w)

/-- The positions of the cells of a row that are on, counted from `x`. -/
def rowOn (x y : Nat) : List Bool → List (Nat × Nat)
  | [] => []
  | true :: cells => (x, y) :: rowOn (x + 1) y cells
  | false :: cells => rowOn (x + 1) y cells

/-- The cells of the rows from `y` on that are on, as (column, row) pairs. -/
def rowsOn (y : Nat) : List (Vector Bool 64) → List (Nat × Nat)
  | [] => []
  | row :: rows => rowOn 0 y row.toList ++ rowsOn (y + 1) rows

/-- The cells of a framebuffer that are on, as (column, row) pairs. -/
def cellsOn (fb : Framebuffer) : List (Nat × Nat) := rowsOn 0 fb.toList

/-! Ill-formed lines of assembler text are refused, one per check of R94 and R103; a well-formed one is accepted. -/

theorem test_wf_accepts : (Asm.Line.mk .sei [.v 15, .num 255]).toInstr = some (.sei 0xF 0xFF) := by decide
theorem test_wf_shift_without_y : (Asm.Line.mk .shr [.v 3]).toInstr = some (.shr 3 0) := by decide
theorem test_wf_register_range : (Asm.Line.mk .mov [.v 16, .v 0]).wellFormed = false := by decide
theorem test_wf_second_register_range : (Asm.Line.mk .mov [.v 0, .v 16]).wellFormed = false := by decide
theorem test_wf_immediate_range : (Asm.Line.mk .ldi [.v 0, .num 256]).wellFormed = false := by decide
theorem test_wf_address_range : (Asm.Line.mk .jp [.num 4096]).wellFormed = false := by decide
theorem test_wf_rows_range : (Asm.Line.mk .drw [.v 0, .v 1, .num 16]).wellFormed = false := by decide
theorem test_wf_single_register_range : (Asm.Line.mk .stm [.v 16]).wellFormed = false := by decide
theorem test_wf_operand_kind : (Asm.Line.mk .ldi [.v 0, .v 1]).wellFormed = false := by decide
theorem test_wf_operand_missing : (Asm.Line.mk .add [.v 0]).wellFormed = false := by decide
theorem test_wf_operand_extra : (Asm.Line.mk .cls [.num 0]).wellFormed = false := by decide
theorem test_wf_every_instruction : (Instr.drw 15 15 15).wellFormed = true ∧ (Instr.jp 0xFFF).wellFormed = true := by decide

/-! Decoding: one word per constructor, bit by bit from the rows of R96. -/

theorem test_decode_nop : decode 0b0000000000000000#16 = some .nop := by decide
theorem test_decode_cls : decode 0b0000000011100000#16 = some .cls := by decide
theorem test_decode_ret : decode 0b0000000011101110#16 = some .ret := by decide
theorem test_decode_jp : decode 0b0001001000110100#16 = some (.jp 0x234) := by decide
theorem test_decode_call : decode 0b0010001100000000#16 = some (.call 0x300) := by decide
theorem test_decode_sei : decode 0b0011001100101010#16 = some (.sei 3 0x2A) := by decide
theorem test_decode_snei : decode 0b0100001100101010#16 = some (.snei 3 0x2A) := by decide
theorem test_decode_ser : decode 0b0101000100100000#16 = some (.ser 1 2) := by decide
theorem test_decode_ldi : decode 0b0110101001111111#16 = some (.ldi 0xA 0x7F) := by decide
theorem test_decode_addi : decode 0b0111000100000011#16 = some (.addi 1 3) := by decide
theorem test_decode_mov : decode 0b1000000100100000#16 = some (.mov 1 2) := by decide
theorem test_decode_or : decode 0b1000000100100001#16 = some (.or 1 2) := by decide
theorem test_decode_and : decode 0b1000000100100010#16 = some (.and 1 2) := by decide
theorem test_decode_xor : decode 0b1000000100100011#16 = some (.xor 1 2) := by decide
theorem test_decode_add : decode 0b1000000100100100#16 = some (.add 1 2) := by decide
theorem test_decode_sub : decode 0b1000000100100101#16 = some (.sub 1 2) := by decide
theorem test_decode_shr : decode 0b1000000100100110#16 = some (.shr 1 2) := by decide
theorem test_decode_subn : decode 0b1000000100100111#16 = some (.subn 1 2) := by decide
theorem test_decode_shl : decode 0b1000000100101110#16 = some (.shl 1 2) := by decide
theorem test_decode_sner : decode 0b1001000100100000#16 = some (.sner 1 2) := by decide
theorem test_decode_seti : decode 0b1010001011110000#16 = some (.seti 0x2F0) := by decide
theorem test_decode_jpv0 : decode 0b1011111100000000#16 = some (.jpv0 0xF00) := by decide
theorem test_decode_rnd : decode 0b1100001100001111#16 = some (.rnd 3 0x0F) := by decide
theorem test_decode_drw : decode 0b1101000000010101#16 = some (.drw 0 1 5) := by decide
theorem test_decode_skp : decode 0b1110010110011110#16 = some (.skp 5) := by decide
theorem test_decode_sknp : decode 0b1110010110100001#16 = some (.sknp 5) := by decide
theorem test_decode_getdt : decode 0b1111001000000111#16 = some (.getdt 2) := by decide
theorem test_decode_wkey : decode 0b1111001100001010#16 = some (.wkey 3) := by decide
theorem test_decode_setdt : decode 0b1111001000010101#16 = some (.setdt 2) := by decide
theorem test_decode_setst : decode 0b1111001000011000#16 = some (.setst 2) := by decide
theorem test_decode_addix : decode 0b1111001000011110#16 = some (.addix 2) := by decide
theorem test_decode_glyph : decode 0b1111010000101001#16 = some (.glyph 4) := by decide
theorem test_decode_bcd : decode 0b1111001100110011#16 = some (.bcd 3) := by decide
theorem test_decode_stm : decode 0b1111001001010101#16 = some (.stm 2) := by decide
theorem test_decode_ldm : decode 0b1111000101100101#16 = some (.ldm 1) := by decide

/-- X1 to X21: unknown words. -/
theorem test_decode_unknown :
    (([0x0001, 0x00E1, 0x00EF, 0x0123, 0x0FFF, 0x5121, 0x512F, 0x8128, 0x812D, 0x812F, 0x9121] : List Word) ++
      ([0xE59F, 0xE500, 0xE5A0, 0xF300, 0xF308, 0xF31F, 0xF356, 0xF366, 0xF3FF, 0xF075] : List Word)).all
      (fun w : Word => decode w == none) = true := by decide

/-- R62, R91: the high byte comes first, and what follows the two bytes is left. -/
theorem test_decode_bytes : decodeBytes [0x12, 0x34, 0x56] = .ok (.jp 0x234, [0x56]) := by decide

/-- One byte is no instruction (R91). -/
theorem test_decode_bytes_truncated : decodeBytes [0x12] = .error .truncated := by decide

/-- Program P1 of Part 3: the encoder gives the listed words. -/
theorem test_encode_p1 : ([.ldi 0 0x0A, .ldi 1 0, .add 1 0, .addi 0 0xFF, .sei 0 0, .jp 0x204] : List Instr).map encode =
    [0x600A, 0x6100, 0x8104, 0x70FF, 0x3000, 0x1204] := by decide

/-- The host's numbering: bit 0 is the least significant bit of the instruction's one word. -/
theorem test_decode_table_word : decodeTableWord 16 0xD015 = some (.drw 0 1 5) := by decide

/-! One tick of each instruction. -/

/-- V1. -/
theorem test_nop_v1 : after (tickOf 0x0000 State.reset) (fun t => (t.pc, t.last, t.fault)) = some (0x202, 0, none) := by decide

/-- V2. -/
theorem test_ret_v2 :
    after (tickOf 0x00EE { State.reset with pc := 0x300, sp := 1, stack := State.reset.stack.set 0 0x202 })
      (fun t => (t.pc, t.sp, t.stack[0])) = some (0x202, 0, 0x202) := by decide

/-- V3. -/
theorem test_ret_v3 :
    after (tickOf 0x00EE State.reset) (fun t => (t.pc, t.sp, t.fault)) =
      some (0x202, 0, some (.stackFault .underflow)) := by decide

/-- V5. -/
theorem test_jp_v5 : after (tickOf 0x1234 State.reset) (·.pc) = some 0x234 := by decide

/-- V7: the jump is not checked, the next fetch is. -/
theorem test_jp_v7 :
    ((after (tickOf 0x1FFF State.reset) id).bind fun t => after (step t) fun u => (u.pc, u.last, u.fault)) =
      some (0xFFF, 0x1FFF, some (.memoryFault 0x1000)) := by decide

/-- V9: the sixteenth entry. -/
theorem test_call_v9 :
    after (tickOf 0x2300 { State.reset with pc := 0x456, sp := 15 }) (fun t => (t.pc, t.sp, t.stack[15], t.stack[14])) =
      some (0x300, 16, 0x458, 0) := by decide

/-- V10. -/
theorem test_call_v10 :
    after (tickOf 0x2300 { State.reset with sp := 16 }) (fun t => (t.pc, t.sp, t.stack[15], t.fault)) =
      some (0x202, 16, 0, some (.stackFault .overflow)) := by decide

/-- V12: not masked to 12 bits. -/
theorem test_jpv0_v12 : after (tickOf 0xBFFF (withRegs [(0, 0xFF)])) (·.pc) = some 0x10FE := by decide

/-- V13: the addend is x[0], not the register the X position names. -/
theorem test_jpv0_v13 : after (tickOf 0xBF00 (withRegs [(0, 0xFF), (0xF, 0x10)])) (·.pc) = some 0xFFF := by decide

/-- V14, V15. -/
theorem test_sei_v14 : after (tickOf 0x332A (withRegs [(3, 0x2A)])) (·.pc) = some 0x204 := by decide
theorem test_sei_v15 : after (tickOf 0x332A (withRegs [(3, 0x2B)])) (·.pc) = some 0x202 := by decide

/-- V16, V17. -/
theorem test_snei_v16 : after (tickOf 0x432A (withRegs [(3, 0x2A)])) (·.pc) = some 0x202 := by decide
theorem test_snei_v17 : after (tickOf 0x432A State.reset) (·.pc) = some 0x204 := by decide

/-- V18, V19. -/
theorem test_ser_v18 : after (tickOf 0x5120 (withRegs [(1, 7), (2, 7)])) (·.pc) = some 0x204 := by decide
theorem test_ser_v19 : after (tickOf 0x5120 (withRegs [(1, 7), (2, 8)])) (·.pc) = some 0x202 := by decide

/-- V21, V23. -/
theorem test_sner_v21 : after (tickOf 0x9120 (withRegs [(1, 7), (2, 8)])) (·.pc) = some 0x204 := by decide
theorem test_sner_v23 : after (tickOf 0x9440 (withRegs [(4, 0x99)])) (·.pc) = some 0x202 := by decide

/-- A1. -/
theorem test_ldi_a1 : after (tickOf 0x6A7F State.reset) (fun t => (t.reg 0xA, t.reg 0xF)) = some (0x7F, 0) := by decide

/-- A4: wraps, no flag. A6: on VF itself. -/
theorem test_addi_a4 :
    after (tickOf 0x7101 (withRegs [(1, 0xFF), (0xF, 0x55)])) (fun t => (t.reg 1, t.reg 0xF)) = some (0, 0x55) := by decide
theorem test_addi_a6 : after (tickOf 0x7F02 (withRegs [(0xF, 0xFF)])) (·.reg 0xF) = some 1 := by decide

/-- A7. -/
theorem test_mov_a7 : after (tickOf 0x8120 (withRegs [(2, 0x33)])) (fun t => (t.reg 1, t.reg 2)) = some (0x33, 0x33) := by decide

/-- A8, A9, A10. -/
theorem test_or_a8 :
    after (tickOf 0x8121 (withRegs [(1, 0xF0), (2, 0x0F), (0xF, 0x77)])) (fun t => (t.reg 1, t.reg 0xF)) =
      some (0xFF, 0x77) := by decide
theorem test_and_a9 :
    after (tickOf 0x8122 (withRegs [(1, 0xF3), (2, 0x3C), (0xF, 0x77)])) (fun t => (t.reg 1, t.reg 0xF)) =
      some (0x30, 0x77) := by decide
theorem test_xor_a10 :
    after (tickOf 0x8123 (withRegs [(1, 0xFF), (2, 0x0F), (0xF, 0x77)])) (fun t => (t.reg 1, t.reg 0xF)) =
      some (0xF0, 0x77) := by decide

/-- A12, A16: with X = F the sum is overwritten by the carry. -/
theorem test_add_a12 :
    after (tickOf 0x8124 (withRegs [(1, 0xFF), (2, 1)])) (fun t => (t.reg 1, t.reg 0xF)) = some (0, 1) := by decide
theorem test_add_a16 : after (tickOf 0x8F24 (withRegs [(0xF, 0xF0), (2, 0x20)])) (·.reg 0xF) = some 1 := by decide

/-- A20, A27: with Y = F the old VF is the subtrahend. -/
theorem test_sub_a20 :
    after (tickOf 0x8125 (withRegs [(1, 1), (2, 2)])) (fun t => (t.reg 1, t.reg 0xF)) = some (0xFF, 0) := by decide
theorem test_sub_a27 :
    after (tickOf 0x81F5 (withRegs [(1, 5), (0xF, 9)])) (fun t => (t.reg 1, t.reg 0xF)) = some (0xFC, 0) := by decide

/-- A30: Y is ignored. A32: with X = F the flag is halved. -/
theorem test_shr_a30 :
    after (tickOf 0x8126 (withRegs [(1, 5), (2, 0xFE)])) (fun t => (t.reg 1, t.reg 2, t.reg 0xF)) = some (2, 0xFE, 1) := by decide
theorem test_shr_a32 : after (tickOf 0x8F06 (withRegs [(0xF, 0xFF)])) (·.reg 0xF) = some 0 := by decide

/-- A35, A39. -/
theorem test_subn_a35 :
    after (tickOf 0x8127 (withRegs [(1, 5), (2, 3)])) (fun t => (t.reg 1, t.reg 0xF)) = some (0xFE, 0) := by decide
theorem test_subn_a39 :
    after (tickOf 0x81F7 (withRegs [(1, 5), (0xF, 9)])) (fun t => (t.reg 1, t.reg 0xF)) = some (4, 1) := by decide

/-- A40, A43: with X = F the flag is doubled. -/
theorem test_shl_a40 :
    after (tickOf 0x810E (withRegs [(1, 0x81)])) (fun t => (t.reg 1, t.reg 0xF)) = some (2, 1) := by decide
theorem test_shl_a43 : after (tickOf 0x8F0E (withRegs [(0xF, 0xFF)])) (·.reg 0xF) = some 2 := by decide

/-- A45: the random byte is a free value, so the drawn byte is given here. -/
theorem test_rnd_a45 : (randomInto 3 0x0F 0xB7 State.reset).reg 3 = 0x07 := by decide

/-- RND takes exactly one byte from the source (R152) and writes its own register only (R151). -/
theorem test_rnd_draws :
    after (tickOf 0xC30F State.reset) (fun t => (t.draws, t.reg 4, t.reg 0xF, t.pc)) = some (1, 0, 0, 0x202) := by decide

/-- M1. -/
theorem test_seti_m1 : after (tickOf 0xA2F0 State.reset) (·.index) = some 0x2F0 := by decide

/-- M3, M4. -/
theorem test_addix_m3 :
    after (tickOf 0xF21E { withRegs [(2, 5)] with index := 0xFFE }) (fun t => (t.index, t.reg 0xF, t.fault)) =
      some (0x1003, 0, none) := by decide
theorem test_addix_m4 : after (tickOf 0xF21E { withRegs [(2, 2)] with index := 0xFFFF }) (·.index) = some 1 := by decide

/-- M7, M8: not masked to a nibble. -/
theorem test_glyph_m7 : after (tickOf 0xF429 { withRegs [(4, 0xF)] with index := 0x999 }) (·.index) = some 0x4B := by decide
theorem test_glyph_m8 : after (tickOf 0xF429 (withRegs [(4, 0xFF)])) (·.index) = some 0x4FB := by decide

/-- M10, M16. -/
theorem test_bcd_m10 :
    after (tickOf 0xF333 { withRegs [(3, 0x9B)] with index := 0x300 })
      (fun t => (t.mem.readBytes 0x2FF 5, t.index)) = some ([0, 1, 5, 5, 0], 0x300) := by decide
theorem test_bcd_m16 :
    after (tickOf 0xF333 { withRegs [(3, 0x7B)] with index := 0xFFE })
      (fun t => (t.mem.readBytes 0xFFE 2, t.fault)) = some ([0, 0], some (.memoryFault 0x1000)) := by decide

/-- M19, M22. -/
theorem test_stm_m19 :
    after (tickOf 0xF255 { withRegs [(0, 0x11), (1, 0x22), (2, 0x33), (3, 0x44)] with index := 0x300 })
      (fun t => (t.mem.readBytes 0x300 4, t.index)) = some ([0x11, 0x22, 0x33, 0], 0x300) := by decide
theorem test_stm_m22 :
    after (tickOf 0xFF55 { withRegs [(0, 1), (1, 2)] with index := 0xFF1 })
      (fun t => (t.mem.readBytes 0xFF1 3, t.fault)) = some ([0, 0, 0], some (.memoryFault 0x1000)) := by decide

/-- M26 (on the default FONT, log entry 1), M29. -/
theorem test_ldm_m26 :
    after (tickOf 0xF465 State.reset) (fun t => (t.regs.toList.take 6)) = some [0xF0, 0x90, 0x90, 0x90, 0xF0, 0] := by decide
theorem test_ldm_m29 :
    after (tickOf 0xF165 { withRegs [(0, 0x77)] with index := 0xFFFF }) (fun t => (t.reg 0, t.fault)) =
      some (0x77, some (.memoryFault 0xFFFF)) := by decide

/-- G1, G2. -/
theorem test_cls_g1 :
    after (tickOf 0x00E0 (withCells (withRegs [(0xF, 1)]) [(0, 0), (63, 31), (10, 10)])) (fun t => (cellsOn t.fb, t.reg 0xF)) =
      some ([], 1) := by decide

/-- G5: an 8 by 2 sprite at (63, 31) wraps both ways. -/
theorem test_drw_g5 :
    after (tickOf 0xD012 ({ withRegs [(0, 63), (1, 31)] with index := 0x300 }.store 0x300 [0xFF, 0xFF]))
      (fun t => (cellsOn t.fb, t.reg 0xF)) =
      some ([(0, 0), (1, 0), (2, 0), (3, 0), (4, 0), (5, 0), (6, 0), (63, 0)] ++
        [(0, 31), (1, 31), (2, 31), (3, 31), (4, 31), (5, 31), (6, 31), (63, 31)], 0) := by decide

/-- G11: one collision is enough, and bit 7 is column 0 (log entry 3). -/
theorem test_drw_g11 :
    after (tickOf 0xD011 ((withCells { State.reset with index := 0x300 } [(0, 0)]).store 0x300 [0xC0]))
      (fun t => (cellsOn t.fb, t.reg 0xF)) = some ([(1, 0)], 1) := by decide

/-- K1, K5: an index of 16 is not masked. -/
theorem test_skp_k1 : after (tickOf 0xE59E ((withRegs [(5, 0xA)]).setKey 10 true)) (·.pc) = some 0x204 := by decide
theorem test_skp_k5 :
    after (tickOf 0xE59E ((withRegs [(5, 0x10)]).setKey 0 true)) (fun t => (t.pc, t.fault)) =
      some (0x202, some (.keyIndexFault 0x10)) := by decide

/-- K3, K6. -/
theorem test_sknp_k3 : after (tickOf 0xE5A1 (withRegs [(5, 0xA)])) (·.pc) = some 0x204 := by decide
theorem test_sknp_k6 :
    after (tickOf 0xE5A1 (withRegs [(5, 0xFF)])) (fun t => (t.pc, t.fault)) = some (0x202, some (.keyIndexFault 0xFF)) := by decide

/-- K8, K9. -/
theorem test_wkey_k8 :
    after (tickOf 0xF30A (withRegs [(3, 0x55)])) (fun t => (t.pc, t.reg 3, t.fault)) = some (0x200, 0x55, none) := by decide
theorem test_wkey_k9 :
    after (tickOf 0xF30A (((withRegs [(3, 0x55)]).setKey 9 true).setKey 7 true)) (fun t => (t.pc, t.reg 3)) =
      some (0x202, 7) := by decide

/-- K12, K16: the delay timer, never the sound timer. -/
theorem test_getdt_k12 : after (tickOf 0xF207 { State.reset with dt := 0x3C }) (fun t => (t.reg 2, t.dt)) = some (0x3C, 0x3C) := by decide
theorem test_getdt_k16 : after (tickOf 0xF207 { withRegs [(2, 7)] with st := 0x3C }) (·.reg 2) = some 0 := by decide

/-- K13, K15. -/
theorem test_setdt_k13 : after (tickOf 0xF215 (withRegs [(2, 0x3C)])) (fun t => (t.dt, t.st)) = some (0x3C, 0) := by decide
theorem test_setst_k15 : after (tickOf 0xF218 (withRegs [(2, 5)])) (fun t => (t.dt, t.st)) = some (0, 5) := by decide

/-- V27, V28: the last word that can be fetched, and the first fetch that cannot. -/
theorem test_fetch_v27 : after (step { State.reset with pc := 0xFFE }) (fun t => (t.pc, t.fault)) = some (0x1000, none) := by decide
theorem test_fetch_v28 :
    after (step { State.reset with pc := 0xFFF, last := 0x1234 }) (fun t => (t.pc, t.last, t.fault)) =
      some (0xFFF, 0x1234, some (.memoryFault 0x1000)) := by decide

/-- X4: an unknown word. -/
theorem test_unknown_x4 :
    after (tickOf 0x0123 State.reset) (fun t => (t.pc, t.last, t.fault)) = some (0x202, 0x123, some (.decodeError 0x123)) := by decide

/-! The host's commands. -/

/-- What a command that went on answers and leaves in one item. -/
def answers {α : Type} (c : Command) (s : State) (f : State → α) : Option (Response × α) :=
  match command c s with
  | .next (t, r) => some (r, f t)
  | _ => none

/-- H2. -/
theorem test_load_h2 :
    answers (.load [0x12, 0x34, 0x56]) State.reset (fun t => (t.mem.readBytes 0x200 4, t.pc)) =
      some (.ok, [0x12, 0x34, 0x56, 0], 0x200) := by decide

/-- H3, H4: 3584 bytes fit, 3585 do not. -/
theorem test_load_h3_h4 : loadFits 3584 = true ∧ loadFits 3585 = false := by decide

/-- H5, H6. -/
theorem test_timers_h5 :
    after (runCommands [.tickTimers, .tickTimers, .tickTimers, .tickTimers] { State.reset with dt := 2, st := 1 })
      (fun t => (t.dt, t.st)) = some (0, 0) := by decide
theorem test_timers_h6 : answers .tickTimers { State.reset with st := 0xFF } (fun t => (t.dt, t.st)) =
    some (.none, 0, 0xFE) := by decide

/-- H5: the first of the four steps is the tone moment, the second is not (R217). -/
theorem test_tone_h5 :
    toneMoment { State.reset with st := 1 } ({ State.reset with st := 1 } : State).afterTimers = true ∧
      toneMoment State.reset State.reset.afterTimers = false := by decide

/-- The codes of the table of R230. -/
theorem test_fault_codes :
    ([.memoryFault 0x1000, .decodeError 1, .stackFault .overflow, .loadError 3585, .keyIndexFault 0x10] : List Fault).map faultCode =
      [1, 2, 3, 4, 5] := by decide

/-- H7. -/
theorem test_set_key_h7 :
    after (runCommands [.setKey 3 true, .setKey 3 true] State.reset) (fun t => (t.keyDown 3, t.keyDown 4)) =
      some (true, false) := by decide

/-- H8. -/
theorem test_get_pixel_h8 :
    answers (.getPixel 63 31) (withCells State.reset [(63, 31)]) (·.pc) = some (.pixel true, 0x200) := by decide

/-- H9: a halted core. -/
theorem test_halted_h9 :
    answers .tick { State.reset with fault := some (.stackFault .underflow), dt := 5 } (fun t => (t.dt, t.pc)) =
      some (.halted, 5, 0x200) := by decide
theorem test_halted_load_h9 :
    answers (.load [0]) { State.reset with fault := some (.stackFault .underflow) } (·.mem) = some (.halted, []) := by decide

/-- H1: RESET leaves a halted core. -/
theorem test_reset_h1 :
    answers .reset ({ withRegs [(3, 7)] with pc := 0x345, dt := 9, fault := some (.decodeError 0x5011) }.store 0x200 [0x12]) id =
      some (.none, State.reset) := by decide

/-! Witnesses: for each statement with hypotheses a concrete state and operands that meet all of them, one per clause, at the
bounds of the clause's range. The name says which statement. -/

theorem witness_EncodeOfDecode : decode 0xD015#16 = some (.drw 0 1 5) := by decide

theorem witness_RowSelectsByMask :
    ((0xFFFF, 0x0000) : Word × Word) ∈ opcodeRows ∧ ((0xF0FF, 0xF065) : Word × Word) ∈ opcodeRows := by decide

/-- The last word that can be fetched, and the first. -/
theorem witness_StepRunsDecodedInstruction :
    ({ State.reset with pc := 0xFFE } : State).running ∧ (0xFFE#16).toNat + 1 < 4096 ∧
      decode (({ State.reset with pc := 0xFFE } : State).wordAt 0xFFE) = some .nop := ⟨rfl, by decide, by decide⟩

/-- The program counter at 0xFFF, at 0x1000 and at its largest value. -/
theorem witness_FetchBeyondMemoryFaults :
    ({ State.reset with pc := 0xFFF } : State).running ∧ 4096 ≤ (0xFFF#16).toNat + 1 ∧ 4096 ≤ (0x1000#16).toNat + 1 ∧
      4096 ≤ (0xFFFF#16).toNat + 1 := ⟨rfl, by decide, by decide, by decide⟩

theorem witness_UnknownWordFaults :
    (State.reset.withFetchWord 16 0x0123).running ∧ (State.reset.withFetchWord 16 0x0123).pc.toNat + 1 < 4096 ∧
      decode ((State.reset.withFetchWord 16 0x0123).wordAt 0x200) = none := ⟨rfl, by decide, by decide⟩

/-- The last two words of memory are zero, and so are `k = 0` words anywhere. -/
theorem witness_ZeroBytesRunAsNops :
    ({ State.reset with pc := 0xFFC } : State).running ∧ (0xFFC#16).toNat + 2 * 2 ≤ 4096 ∧
      ∀ a, 0xFFC ≤ a → a < 0xFFC + 2 * 2 → State.reset.mem.read a = 0 := by
  refine ⟨rfl, by decide, fun a h1 h2 => ?_⟩
  obtain rfl | rfl | rfl | rfl : a = 0xFFC ∨ a = 0xFFD ∨ a = 0xFFE ∨ a = 0xFFF := by omega
  all_goals decide

/-- The least and the greatest of the unknown words 0NNN among the rest. -/
theorem witness_NopOnlyFetches :
    (State.reset.running ∧ State.reset.pc.toNat + 1 < 4096 ∧ State.reset.wordAt State.reset.pc.toNat = 0x0000#16) ∧
      (fieldD1 0x0001#16 = 0x0#4 ∧ 0x0001#16 ≠ 0x0000#16 ∧ 0x0001#16 ≠ 0x00E0#16 ∧ 0x0001#16 ≠ 0x00EE#16) ∧
      (fieldD1 0x0FFF#16 = 0x0#4 ∧ 0x0FFF#16 ≠ 0x0000#16 ∧ 0x0FFF#16 ≠ 0x00E0#16 ∧ 0x0FFF#16 ≠ 0x00EE#16) :=
  ⟨⟨rfl, by decide, by decide⟩, by decide, by decide⟩

/-- JP 0x200 at 0x200, and JP 0xFFE at 0xFFE, the last word that can be fetched. -/
theorem witness_JumpSetsPc :
    fieldD1 0x1FFF#16 = 0x1#4 ∧
      ((State.reset.withFetchWord 16 0x1200).running ∧
        (State.reset.withFetchWord 16 0x1200).pc.toNat = (0x200#12).toNat ∧ 0x200#12 ≠ 0xFFF ∧
        decode ((State.reset.withFetchWord 16 0x1200).wordAt 0x200) = some (.jp 0x200)) ∧
      (({ State.reset with pc := 0xFFE } : State).withFetchWord 16 0x1FFE).pc.toNat = (0xFFE#12).toNat ∧
      decode ((({ State.reset with pc := 0xFFE } : State).withFetchWord 16 0x1FFE).wordAt 0xFFE) = some (.jp 0xFFE) ∧
      State.reset.running := ⟨by decide, ⟨rfl, by decide, by decide, by decide⟩, by decide, by decide, rfl⟩

/-- A word of each form, the two register forms at the least and the greatest other fourth nibble, and the least and the greatest
program counter whose fetch faults. -/
theorem witness_SkipsAddTwo :
    (fieldD1 0x332A#16 = 0x3#4 ∧ fieldD1 0x432A#16 = 0x4#4 ∧ (fieldD1 0x5120#16 = 0x5#4 ∧ fieldN 0x5120#16 = 0#4) ∧
      fieldD1 0x9120#16 = 0x9#4 ∧ fieldN 0x9120#16 = 0#4) ∧
    (fieldD1 0x5121#16 = 0x5#4 ∧ fieldN 0x5121#16 ≠ 0#4) ∧ (fieldD1 0x912F#16 = 0x9#4 ∧ fieldN 0x912F#16 ≠ 0#4) ∧
    (({ State.reset with pc := 0xFFF } : State).running ∧ 0xFFF ≤ ({ State.reset with pc := 0xFFF } : State).pc.toNat) ∧
    0xFFF ≤ ({ State.reset with pc := 0xFFFF } : State).pc.toNat :=
  ⟨by decide, by decide, by decide, ⟨rfl, by decide⟩, by decide⟩

theorem witness_CopiesWriteOneItem :
    fieldD1 0x6A7F#16 = 0x6#4 ∧ (fieldD1 0x8120#16 = 0x8#4 ∧ fieldN 0x8120#16 = 0x0#4) ∧
      (fieldD1 0xF207#16 = 0xF#4 ∧ fieldNN 0xF207#16 = 0x07#8) ∧ (fieldD1 0xF215#16 = 0xF#4 ∧ fieldNN 0xF215#16 = 0x15#8) ∧
      fieldD1 0xF218#16 = 0xF#4 ∧ fieldNN 0xF218#16 = 0x18#8 := by decide

theorem witness_AddImmediateWrapsWithoutFlag : fieldD1 0x7103#16 = 0x7#4 := by decide

theorem witness_IndexIsSet :
    fieldD1 0xA2F0#16 = 0xA#4 ∧ fieldD1 0xF429#16 = 0xF#4 ∧ fieldNN 0xF429#16 = 0x29#8 := by decide

/-- A bit that is 0 in NN. -/
theorem witness_RandomByteIsMasked : (0x0F#8).getLsbD 7 = false := by decide

/-- An empty stack and one with one free slot. -/
theorem witness_CallPushesReturnAddress :
    State.reset.sp.val < 16 ∧ ({ State.reset with sp := 15 } : State).sp.val < 16 := by decide

/-- One entry held, and sixteen. -/
theorem witness_ReturnPopsAddress :
    (0 : Fin 16).val + 1 = ({ State.reset with sp := 1 } : State).sp.val ∧
      (15 : Fin 16).val + 1 = ({ State.reset with sp := 16 } : State).sp.val := by decide

theorem witness_StackEndsFault : ({ State.reset with sp := 16 } : State).sp.val = 16 ∧ State.reset.sp.val = 0 := by decide

theorem witness_CallThenReturnResumes : ({ State.reset with sp := 15 } : State).sp.val < 16 := by decide

/-- The last base at which three digits fit. -/
theorem witness_BcdStoresThreeDigits : ({ State.reset with index := 0xFFD } : State).index.toNat + 3 ≤ 4096 := by decide

/-- The last bases for one register and for sixteen. -/
theorem witness_StoreRunWritesRegisters :
    ({ State.reset with index := 0xFFF } : State).index.toNat + (0#4).toNat < 4096 ∧
      ({ State.reset with index := 0xFF0 } : State).index.toNat + (0xF#4).toNat < 4096 := by decide

theorem witness_LoadRunReadsRegisters :
    ({ State.reset with index := 0xFFF } : State).index.toNat + (0#4).toNat < 4096 ∧
      ({ State.reset with index := 0xFF0 } : State).index.toNat + (0xF#4).toNat < 4096 := by decide

theorem witness_StoredRunIsLoadedBack :
    ({ State.reset with index := 0xFF0 } : State).index.toNat + (0xF#4).toNat < 4096 := by decide

/-- The first base of each clause that leaves memory. -/
theorem witness_RangeBeyondMemoryFaults :
    4096 ≤ ({ State.reset with index := 0xFFE } : State).index.toNat + 2 ∧
      4096 ≤ ({ State.reset with index := 0xFF1 } : State).index.toNat + (0xF#4).toNat ∧
      4096 ≤ ({ State.reset with index := 0x1000 } : State).index.toNat + (0#4).toNat ∧
      (0 < (1#4).toNat ∧ 4096 ≤ ({ State.reset with index := 0x1000 } : State).index.toNat + (1#4).toNat - 1) ∧
      0 < (0xF#4).toNat ∧ 4096 ≤ ({ State.reset with index := 0xFF2 } : State).index.toNat + (0xF#4).toNat - 1 := by decide

/-- No rows with I outside memory; fifteen rows at the last base; a covered cell that was on, and a sprite that covers none. -/
theorem witness_DrawInvertsCoveredCells :
    (0#4).toNat = 0 ∧ ({ State.reset with index := 0xFF1 } : State).index.toNat + (0xF#4).toNat ≤ 4096 ∧
      ((withCells State.reset [(0, 0)]).spriteCovers 0 0 1 0 0 ∧ (withCells State.reset [(0, 0)]).fb.get 0 0 = true) ∧
      ¬ State.reset.spriteCovers 0 0 0 0 0 ∧
      ¬ ∃ v u, State.reset.spriteCovers 0 0 0 v u ∧ State.reset.fb.get v u = true := by
  have h0 : ∀ v u, ¬ State.reset.spriteCovers 0 0 0 v u := by rintro v u ⟨row, _, h, _⟩; exact Nat.not_lt_zero row h
  exact ⟨by decide, by decide, ⟨⟨0, 0, by decide, by decide, by decide, by decide, by decide⟩, by decide⟩, h0 0 0,
    fun ⟨v, u, h, _⟩ => h0 v u h⟩

theorem witness_DrawTwiceRestoresFramebuffer :
    0#4 ≠ 0xF#4 ∧ 1#4 ≠ 0xF#4 ∧ ({ State.reset with index := 0xFF1 } : State).index.toNat + (0xF#4).toNat ≤ 4096 := by decide

/-- The lowest and the highest key index. -/
theorem witness_KeySkipsTestTheKey :
    (State.reset.reg 0).toNat = (0#4).toNat ∧ ((withRegs [(5, 0xF)]).reg 5).toNat = (0xF#4).toNat := by decide

theorem witness_KeyIndexOfSixteenFaults :
    16 ≤ ((withRegs [(5, 0x10)]).reg 5).toNat ∧ 16 ≤ ((withRegs [(5, 0xFF)]).reg 5).toNat := by decide

/-- Key 15 alone, and key 0 with a higher one. -/
theorem witness_KeyWaitStoresLowestKey :
    ((State.reset.setKey 15 true).keys[15] = true ∧
      ∀ j : Fin 16, j.val < 15 → (State.reset.setKey 15 true).keys[j] = false) ∧
    ((State.reset.setKey 9 true).setKey 0 true).keys[0] = true := by decide

theorem witness_KeyWaitReplays :
    (∀ j : Fin 16, (State.reset.withFetchWord 16 0xF30A).keys[j] = false) ∧ (State.reset.withFetchWord 16 0xF30A).running ∧
      (State.reset.withFetchWord 16 0xF30A).pc.toNat + 1 < 4096 ∧
      decode ((State.reset.withFetchWord 16 0xF30A).wordAt 0x200) = some (.wkey 3) := ⟨by decide, rfl, by decide, by decide⟩

/-- A halted core, a tick that goes on and a tick that latches a fault. -/
theorem witness_EveryTickCompletes :
    ¬ ({ State.reset with fault := some (.stackFault .underflow) } : State).running ∧ State.reset.running ∧
      after (step State.reset) (·.fault) = some none ∧
      ({ State.reset with pc := 0xFFF } : State).running ∧
      after (step { State.reset with pc := 0xFFF }) (·.fault) = some (some (.memoryFault 0x1000)) :=
  ⟨by simp [State.running], rfl, by decide, rfl, by decide⟩

theorem witness_FaultingInstructionWritesNothing :
    State.reset.running ∧ exec .ret State.reset = .next (State.reset.latch (.stackFault .underflow)) ∧
      (State.reset.latch (.stackFault .underflow)).fault ≠ none := ⟨rfl, rfl, by decide⟩

/-- A fault of each kind an instruction can raise. -/
theorem witness_EachInstructionHasItsFault :
    State.reset.running ∧ exec .ret State.reset = .next (State.reset.latch (.stackFault .underflow)) ∧
      after (exec (.call 0x300) { State.reset with sp := 16 }) (·.fault) = some (some (.stackFault .overflow)) ∧
      after (exec (.ldm 0) { State.reset with index := 0x1000 }) (·.fault) = some (some (.memoryFault 0x1000)) ∧
      after (exec (.drw 0 0 1) { State.reset with index := 0xFFFF }) (·.fault) = some (some (.memoryFault 0xFFFF)) ∧
      after (exec (.skp 5) (withRegs [(5, 0x10)])) (·.fault) = some (some (.keyIndexFault 0x10)) :=
  ⟨rfl, rfl, by decide, by decide, by decide, by decide⟩

/-- A flag written as a flag, and VF written as a plain register. -/
theorem witness_OnlySixInstructionsWriteTheFlag :
    exec (.ldi 0xF 1) State.reset = .next (State.reset.setReg 0xF 1) ∧ (State.reset.setReg 0xF 1).reg 0xF ≠ State.reset.reg 0xF ∧
      after (exec (.sub 0 0) State.reset) (·.reg 0xF) = some 1 := ⟨rfl, by decide, by decide⟩

/-- Each item is changed by an instruction that the statement names for it: registers by each of the ways it lists, then the
program counter, and every other item. -/
theorem witness_EachItemHasItsWriters :
    (after (exec (.ldi 3 7) State.reset) (·.reg 3) = some 7 ∧ after (exec (.mov 3 1) (withRegs [(1, 5)])) (·.reg 3) = some 5 ∧
      after (exec (.sub 1 2) (withRegs [(1, 5), (2, 3)])) (fun t => (t.reg 1, t.reg 0xF)) = some (2, 1) ∧
      after (exec (.drw 0 0 0) (withRegs [(0xF, 1)])) (·.reg 0xF) = some 0 ∧
      after (exec (.getdt 3) { State.reset with dt := 5 }) (·.reg 3) = some 5 ∧
      after (exec (.wkey 3) (State.reset.setKey 7 true)) (·.reg 3) = some 7 ∧
      after (exec (.ldm 1) State.reset) (fun t => (t.reg 0, t.reg 1)) = some (0xF0, 0x90)) ∧
    after (exec (.jp 0x300) State.reset) (·.pc) = some 0x300 ∧
    after (exec (.setdt 1) (withRegs [(1, 5)])) (·.dt) = some 5 ∧ after (exec (.setst 1) (withRegs [(1, 5)])) (·.st) = some 5 ∧
    after (exec (.seti 1) State.reset) (·.index) = some 1 ∧
    after (exec .cls (withCells State.reset [(0, 0)])) (fun t => cellsOn t.fb) = some [] ∧
    after (exec (.call 0x300) State.reset) (fun t => (t.sp, t.stack[0])) = some (1, 0x200) ∧
    after (exec (.stm 0) State.reset) (fun t => t.mem.read 0) = some 0 ∧ State.reset.mem.read 0 = 0xF0 ∧
    after (exec .ret State.reset) (·.fault) = some (some (.stackFault .underflow)) ∧
    after (exec (.rnd 0 0) State.reset) (·.draws) = some 1 := by decide

theorem witness_LastHasNoEffect :
    ∃ t, step { State.reset with fault := some (.stackFault .underflow) } = .next t := ⟨_, rfl⟩

theorem witness_SoundTimerIsNeverRead : exec .nop State.reset = .next State.reset := rfl

/-- JP 0x200 at 0x200. -/
theorem witness_FinishedIsFixedPoint : (State.reset.withFetchWord 16 0x1200).finished :=
  ⟨rfl, by decide, 0x200, by decide, by decide⟩

theorem witness_StepKeepsMemoryCanonical :
    State.reset.mem.wf = true ∧ (after (step (State.reset.withFetchWord 16 0xF055)) (·.mem.wf)) = some true := by decide

theorem witness_StepKeepsPcBounded :
    ({ State.reset with pc := 0x10FE, sp := 16, stack := Vector.replicate 16 0x1000 } : State).pcBounded :=
  ⟨by decide, by decide⟩

/-- Every kind of latched fault that can be sound. -/
theorem witness_StepKeepsFaultSound :
    State.reset.faultSound ∧ (State.reset.latch (.memoryFault 0x1000)).faultSound ∧
      ({ State.reset with last := 0x0123 }.latch (.decodeError 0x0123)).faultSound ∧
      ({ State.reset with sp := 16 }.latch (.stackFault .overflow)).faultSound ∧
      (State.reset.latch (.stackFault .underflow)).faultSound ∧ (State.reset.latch (.keyIndexFault 0x10)).faultSound := by
  exact ⟨trivial, ⟨by decide, by decide⟩, ⟨by decide, rfl⟩, rfl, rfl, show 16 ≤ (0x10#8).toNat by decide⟩

/-- The state a CALL at the last fetchable word leaves meets the invariants. -/
theorem witness_CommandsKeepInvariants :
    ({ State.reset with pc := 0x300, sp := 1, stack := Vector.replicate 16 0x1000 } : State).Inv :=
  ⟨by decide, ⟨by decide, by decide⟩, trivial⟩

/-- No bytes, and the most that fit. -/
theorem witness_LoadRoundTrip :
    State.reset.running ∧ 0x200 + ([] : List Byte).length ≤ 4096 ∧ 0x200 + (List.replicate 3584 (0xAA : Byte)).length ≤ 4096 :=
  ⟨rfl, by decide, by rw [List.length_replicate]⟩

theorem witness_LoadTooLargeChangesNothing :
    State.reset.running ∧ 4096 < 0x200 + (List.replicate 3585 (0 : Byte)).length := ⟨rfl, by rw [List.length_replicate]; decide⟩

theorem witness_TimerStepsCountDownToZero : ({ State.reset with dt := 2, st := 1 } : State).running := rfl

theorem witness_SetKeyWritesOneKey : State.reset.running := rfl

theorem witness_HaltedCoreChangesNothing :
    (State.reset.latch (.stackFault .underflow)).fault ≠ none ∧
      Command.reset ∉ [Command.tick, .tickTimers, .setKey 1 true, .load [0], .getPixel 0 0] := by decide

end Sys2Proof.Tests
end

section
/-! Control flow (spec/40_control_flow.md): the words of group 0, a step through its decoded instruction, and NOP. -/

namespace Sys2Proof

/-- A word whose first digit is 0 is decoded by its group. -/
theorem decode_of_fieldD1_zero {w : Word} (h : fieldD1 w = 0x0#4) : decode w = decodeGroup0 w := by
  simp [decode, h]

/-- The first digit of a word that is not in group 0 selects some other instruction, so NOP comes from group 0 only (R95). -/
theorem fieldD1_eq_zero_of_decode_nop {w : Word} (h : decode w = some .nop) : fieldD1 w = 0x0#4 := by
  unfold decode at h
  split at h
  case h_1 h0 => exact BitVec.eq_of_toNat_eq h0
  case h_9 => unfold decodeGroup8 at h; split at h <;> cases h
  case h_15 => unfold decodeGroupE at h; split at h <;> cases h
  case h_16 => unfold decodeGroupF at h; split at h <;> cases h
  case h_6 | h_10 => split at h <;> cases h
  all_goals cases h

/-- Within group 0 the one word of NOP is 0x0000. -/
theorem decodeGroup0_eq_nop_iff {w : Word} : decodeGroup0 w = some .nop ↔ w = 0x0000#16 := by
  unfold decodeGroup0
  split_ifs <;> simp [*]

/-- Group 0 holds no word but those of NOP, CLS and RET (R97). -/
theorem decodeGroup0_eq_none {w : Word} (hnop : w ≠ 0x0000#16) (hcls : w ≠ 0x00E0#16) (hret : w ≠ 0x00EE#16) :
    decodeGroup0 w = none := by
  rw [decodeGroup0, if_neg hnop, if_neg hcls, if_neg hret]

/-- The one word of NOP is 0x0000 (R96, R120). -/
theorem decode_eq_nop_iff {w : Word} : decode w = some .nop ↔ w = 0x0000#16 := by
  constructor
  · intro h
    have hgroup := decode_of_fieldD1_zero (fieldD1_eq_zero_of_decode_nop h)
    exact decodeGroup0_eq_nop_iff.1 (hgroup ▸ h)
  · rintro rfl
    decide

namespace Machine

/-- A running core with both bytes of the next word in memory executes what the word decodes to, from the state the fetch
left (R213). -/
theorem step_of_decode_eq_some {s : State} {i : Instr} (hrun : s.running) (hpc : s.pc.toNat + 1 < 4096)
    (hdec : decode (s.wordAt s.pc.toNat) = some i) : step s = exec i (s.fetched (s.wordAt s.pc.toNat)) := by
  have hhalt : s.halted = false := State.halted_eq_false_iff.2 hrun
  obtain ⟨hhalted, -⟩ | ⟨-, hout, -⟩ | ⟨-, -, hnone, -⟩ | ⟨j, -, -, hj, hstep⟩ := step_cases s
  · simp [hhalt] at hhalted
  · omega
  · simp [hdec] at hnone
  · obtain rfl : i = j := Option.some.inj (hdec.symm.trans hj)
    exact hstep

/-- NOP leaves the state the fetch left (R120). -/
@[simp] theorem exec_nop (s : State) : exec .nop s = .next s := rfl

/-- Settles O10: NOP has the word 0x0000 alone in its group, and its step keeps the state the fetch left. -/
theorem nopOnlyFetches : Obligations.NopOnlyFetches := by
  refine ⟨exec_nop, fun w => decode_eq_nop_iff, fun w hd1 hnop hcls hret => ?_, fun s hrun hpc hword => ?_⟩
  · rw [decode_of_fieldD1_zero hd1, decodeGroup0_eq_none hnop hcls hret]
  · calc step s = exec .nop (s.fetched (s.wordAt s.pc.toNat)) :=
          step_of_decode_eq_some hrun hpc (decode_eq_nop_iff.2 hword)
      _ = .next { s with pc := s.pc + 2, last := 0x0000#16 } := by rw [exec_nop, hword]; rfl

end Machine
end Sys2Proof
end

section
/-! Loads, copies and ADDI (spec/41_load_alu.md, spec/44_keys_timers.md): the words of their groups, what each answers, and the
one rule for an instruction that writes one register. -/

namespace Sys2Proof

/-- A word whose first digit is 6 is LDI (R95). -/
theorem decode_of_fieldD1_six {w : Word} (h : fieldD1 w = 0x6#4) : decode w = some (.ldi (fieldX w) (fieldNN w)) := by
  simp [decode, h]

/-- A word whose first digit is 7 is ADDI (R95). -/
theorem decode_of_fieldD1_seven {w : Word} (h : fieldD1 w = 0x7#4) : decode w = some (.addi (fieldX w) (fieldNN w)) := by
  simp [decode, h]

/-- A word whose first digit is 8 is decoded by its last digit (R95). -/
theorem decode_of_fieldD1_eight {w : Word} (h : fieldD1 w = 0x8#4) : decode w = decodeGroup8 w := by
  simp [decode, h]

/-- A word whose first digit is F is decoded by its low byte (R95). -/
theorem decode_of_fieldD1_fifteen {w : Word} (h : fieldD1 w = 0xF#4) : decode w = decodeGroupF w := by
  simp [decode, h]

/-- In group 8 the last digit 0 is MOV. -/
theorem decodeGroup8_of_fieldN_zero {w : Word} (h : fieldN w = 0x0#4) :
    decodeGroup8 w = some (.mov (fieldX w) (fieldY w)) := by
  simp [decodeGroup8, h]

/-- In group F the low byte 07 is GETDT. -/
theorem decodeGroupF_of_fieldNN_07 {w : Word} (h : fieldNN w = 0x07#8) : decodeGroupF w = some (.getdt (fieldX w)) := by
  simp [decodeGroupF, h]

/-- In group F the low byte 15 is SETDT. -/
theorem decodeGroupF_of_fieldNN_15 {w : Word} (h : fieldNN w = 0x15#8) : decodeGroupF w = some (.setdt (fieldX w)) := by
  simp [decodeGroupF, h]

/-- In group F the low byte 18 is SETST. -/
theorem decodeGroupF_of_fieldNN_18 {w : Word} (h : fieldNN w = 0x18#8) : decodeGroupF w = some (.setst (fieldX w)) := by
  simp [decodeGroupF, h]

namespace Machine

@[simp] theorem exec_ldi (x : Nibble) (nn : Byte) (s : State) : exec (.ldi x nn) s = .next (s.setReg x nn) := rfl

@[simp] theorem exec_addi (x : Nibble) (nn : Byte) (s : State) :
    exec (.addi x nn) s = .next (s.setReg x (addBytes (s.reg x) nn)) := rfl

@[simp] theorem exec_mov (x y : Nibble) (s : State) : exec (.mov x y) s = .next (s.setReg x (s.reg y)) := rfl

@[simp] theorem exec_getdt (x : Nibble) (s : State) : exec (.getdt x) s = .next (s.setReg x s.dt) := rfl

@[simp] theorem exec_setdt (x : Nibble) (s : State) : exec (.setdt x) s = .next (s.setDelay (s.reg x)) := rfl

@[simp] theorem exec_setst (x : Nibble) (s : State) : exec (.setst x) s = .next (s.setSound (s.reg x)) := rfl

/-- A register write leaves everything but the registers as it was. -/
theorem State.setReg_frame (s : State) (x : Nibble) (v : Byte) :
    s.setReg x v = { s with regs := (s.setReg x v).regs } := rfl

/-- An instruction that answers one register write changes that register and nothing else. -/
theorem exec_writes_one_reg {i : Instr} {s : State} {x : Nibble} {v : Byte} (h : exec i s = .next (s.setReg x v)) :
    ∃ t, exec i s = .next t ∧ (∀ r, t.reg r = if r = x then v else s.reg r) ∧ t = { s with regs := t.regs } :=
  ⟨s.setReg x v, h, s.setReg_reg x v, s.setReg_frame x v⟩

/-- Settles O19: ADDI is one register write, and the written byte is the sum modulo 256. -/
theorem addImmediateWrapsWithoutFlag : Obligations.AddImmediateWrapsWithoutFlag := by
  refine ⟨fun w => decode_of_fieldD1_seven, fun x nn s => ?_⟩
  obtain ⟨t, hexec, hreg, hframe⟩ := exec_writes_one_reg (exec_addi x nn s)
  refine ⟨t, hexec, fun r => ?_, hframe⟩
  rw [hreg r, apply_ite BitVec.toNat, addBytes_toNat]

/-- Settles O18: LDI, MOV and GETDT are one register write each, SETDT and SETST one timer write. -/
theorem copiesWriteOneItem : Obligations.CopiesWriteOneItem := by
  refine ⟨fun w => ⟨decode_of_fieldD1_six, fun hd1 hn => ?mov, fun hd1 hnn => ?getdt, fun hd1 hnn => ?setdt,
      fun hd1 hnn => ?setst⟩,
    fun x nn s => exec_writes_one_reg (exec_ldi x nn s), fun x y s => exec_writes_one_reg (exec_mov x y s),
    fun x s => exec_writes_one_reg (exec_getdt x s), fun x s => ⟨exec_setdt x s, exec_setst x s⟩⟩
  case mov => rw [decode_of_fieldD1_eight hd1, decodeGroup8_of_fieldN_zero hn]
  case getdt => rw [decode_of_fieldD1_fifteen hd1, decodeGroupF_of_fieldNN_07 hnn]
  case setdt => rw [decode_of_fieldD1_fifteen hd1, decodeGroupF_of_fieldNN_15 hnn]
  case setst => rw [decode_of_fieldD1_fifteen hd1, decodeGroupF_of_fieldNN_18 hnn]

end Machine
end Sys2Proof
end

section
/-! The index register (spec/42_index_memory.md): the words of SETI and GLYPH, what each answers, and the one rule for an
instruction that writes I alone. -/

namespace Sys2Proof

/-- A word whose first digit is A is SETI (R95). -/
theorem decode_of_fieldD1_ten {w : Word} (h : fieldD1 w = 0xA#4) : decode w = some (.seti (fieldNNN w)) := by
  simp [decode, h]

/-- In group F the low byte 29 is GLYPH. -/
theorem decodeGroupF_of_fieldNN_29 {w : Word} (h : fieldNN w = 0x29#8) : decodeGroupF w = some (.glyph (fieldX w)) := by
  simp [decodeGroupF, h]

namespace Machine

@[simp] theorem exec_seti (nnn : Addr) (s : State) : exec (.seti nnn) s = .next (s.setIndex (addrWord nnn)) := rfl

@[simp] theorem exec_glyph (x : Nibble) (s : State) : exec (.glyph x) s = .next (s.setIndex (glyphAddr (s.reg x))) := rfl

/-- A write of I leaves everything but I as it was. -/
theorem State.setIndex_frame (s : State) (v : Word) : s.setIndex v = { s with index := (s.setIndex v).index } := rfl

/-- An instruction that answers one write of I, of a word whose value is `n`, sets I to `n` and changes nothing else. -/
theorem exec_writes_index {i : Instr} {s : State} {v : Word} {n : Nat} (h : exec i s = .next (s.setIndex v))
    (hv : v.toNat = n) : ∃ t, exec i s = .next t ∧ t.index.toNat = n ∧ t = { s with index := t.index } := by
  refine ⟨s.setIndex v, h, ?_, s.setIndex_frame v⟩
  rw [State.setIndex_index, hv]

/-- Settles O27: SETI and GLYPH are one write of I each, and neither word wraps: NNN has 12 bits, and 5 * x[X] is at most
1275. -/
theorem indexIsSet : Obligations.IndexIsSet := by
  refine ⟨fun w => ⟨decode_of_fieldD1_ten, fun hd1 hnn => ?glyphWord⟩,
    fun nnn s => exec_writes_index (exec_seti nnn s) (addrWord_toNat nnn),
    fun x s => exec_writes_index (exec_glyph x s) (glyphAddr_toNat (s.reg x))⟩
  case glyphWord => rw [decode_of_fieldD1_fifteen hd1, decodeGroupF_of_fieldNN_29 hnn]

end Machine
end Sys2Proof
end

section
/-! CLS (spec/43_display.md): the rows of the opcode map that are one word each, and what CLS answers. -/

namespace Sys2Proof

/-- A row of the opcode map with no operand bits is one word: the instruction is decoded from its match value only (R96). -/
theorem word_eq_match_of_full_mask {w : Word} {i : Instr} (h : decode w = some i) (hmask : i.row.1 = 0xFFFF) :
    w = i.row.2 := by
  unfold decode at h
  split at h
  -- Group 0 compares the whole word; every other instruction has operand bits, which its mask leaves out.
  case h_1 =>
    unfold decodeGroup0 at h
    split_ifs at h with hw hw hw <;> cases h <;> exact hw
  case h_9 | h_15 | h_16 =>
    simp only [decodeGroup8, decodeGroupE, decodeGroupF] at h
    split at h <;> cases h <;> simp [Instr.row] at hmask
  case h_6 | h_10 =>
    split at h <;> cases h
    simp [Instr.row] at hmask
  all_goals cases h <;> simp [Instr.row] at hmask

/-- The one word of CLS is 0x00E0 (R96, R180). -/
theorem decode_eq_cls_iff {w : Word} : decode w = some .cls ↔ w = 0x00E0#16 := by
  constructor
  · intro h
    exact word_eq_match_of_full_mask h rfl
  · rintro rfl
    decide

namespace Machine

@[simp] theorem exec_cls (s : State) : exec .cls s = .next (s.setFb Framebuffer.blank) := rfl

/-- A write of the framebuffer leaves everything else as it was. -/
theorem State.setFb_frame (s : State) (g : Framebuffer) : s.setFb g = { s with fb := (s.setFb g).fb } := rfl

/-- Settles O34: CLS is one write of the framebuffer, and the framebuffer it writes has no cell on. -/
theorem clearTurnsEveryCellOff : Obligations.ClearTurnsEveryCellOff := by
  refine ⟨fun s => ⟨s.setFb Framebuffer.blank, exec_cls s, fun v u => ?cell, s.setFb_frame Framebuffer.blank⟩,
    fun w => decode_eq_cls_iff⟩
  case cell => rw [State.setFb_fb, Framebuffer.get_blank]

end Machine
end Sys2Proof
end

section
/-! The opcode map (spec/30_encoding.md): the words of every group, the round trip between words and instructions, the rows
as masks, and the unknown words. -/

namespace Sys2Proof

/-- A word whose first digit is 1 is JP (R95). -/
theorem decode_of_fieldD1_one {w : Word} (h : fieldD1 w = 0x1#4) : decode w = some (.jp (fieldNNN w)) := by
  simp [decode, h]

/-- A word whose first digit is 3 is SEI (R95). -/
theorem decode_of_fieldD1_three {w : Word} (h : fieldD1 w = 0x3#4) : decode w = some (.sei (fieldX w) (fieldNN w)) := by
  simp [decode, h]

/-- A word whose first digit is 4 is SNEI (R95). -/
theorem decode_of_fieldD1_four {w : Word} (h : fieldD1 w = 0x4#4) : decode w = some (.snei (fieldX w) (fieldNN w)) := by
  simp [decode, h]

/-- A word whose first digit is 5 is SER or unknown, by its last digit (R95). -/
theorem decode_of_fieldD1_five {w : Word} (h : fieldD1 w = 0x5#4) :
    decode w = if fieldN w = 0#4 then some (.ser (fieldX w) (fieldY w)) else none := by
  simp [decode, h]

/-- A word whose first digit is 9 is SNER or unknown, by its last digit (R95). -/
theorem decode_of_fieldD1_nine {w : Word} (h : fieldD1 w = 0x9#4) :
    decode w = if fieldN w = 0#4 then some (.sner (fieldX w) (fieldY w)) else none := by
  simp [decode, h]

/-- A word whose first digit is E is decoded by its low byte (R95). -/
theorem decode_of_fieldD1_fourteen {w : Word} (h : fieldD1 w = 0xE#4) : decode w = decodeGroupE w := by
  simp [decode, h]

/-- Settles O1: each instruction's word has the first digit of its group, and within the group the digits that select it. -/
theorem decodeOfEncode : Obligations.DecodeOfEncode := by
  intro i
  cases i
  case nop | cls | ret => decide
  case jp | call | seti | jpv0 | sei | snei | ldi | addi | rnd | ser | sner | drw => simp [encode, decode]
  case mov | or | and | xor | add | sub | shr | subn | shl =>
    rw [encode, decode_of_fieldD1_eight (fieldD1_formatR ..)]
    simp [decodeGroup8]
  case skp | sknp =>
    rw [encode, decode_of_fieldD1_fourteen (fieldD1_formatI ..)]
    simp [decodeGroupE]
  all_goals
    rw [encode, decode_of_fieldD1_fifteen (fieldD1_formatI ..)]
    simp [decodeGroupF]

/-- A word is in format A with the first digit it has and its own address. -/
theorem formatA_fields {w : Word} {d : Nibble} (hd : (fieldD1 w).toNat = d.toNat) : formatA d (fieldNNN w) = w := by
  rw [← BitVec.eq_of_toNat_eq hd, word_eq_formatA]

/-- A word is in format I with the first digit and the low byte it has and its own X. -/
theorem formatI_fields {w : Word} {d : Nibble} {k : Byte} (hd : (fieldD1 w).toNat = d.toNat)
    (hk : (fieldNN w).toNat = k.toNat) : formatI d (fieldX w) k = w := by
  rw [← BitVec.eq_of_toNat_eq hd, ← BitVec.eq_of_toNat_eq hk, word_eq_formatI]

/-- A word is in format R with the first and the last digit it has and its own X and Y. -/
theorem formatR_fields {w : Word} {d n : Nibble} (hd : (fieldD1 w).toNat = d.toNat)
    (hn : (fieldN w).toNat = n.toNat) : formatR d (fieldX w) (fieldY w) n = w := by
  rw [← BitVec.eq_of_toNat_eq hd, ← BitVec.eq_of_toNat_eq hn, word_eq_formatR]

/-- A known word of group 0 is the one word of its instruction. -/
theorem encode_of_decodeGroup0 {w : Word} {i : Instr} (h : decodeGroup0 w = some i) : encode i = w := by
  unfold decodeGroup0 at h
  split_ifs at h with hw hw hw <;> cases h <;> exact hw.symm

/-- A known word of group 8 has the last digit that its instruction's encoding writes. -/
theorem encode_of_decodeGroup8 {w : Word} {i : Instr} (hd : (fieldD1 w).toNat = 0x8) (h : decodeGroup8 w = some i) :
    encode i = w := by
  unfold decodeGroup8 at h
  split at h <;> cases h <;> exact formatR_fields hd ‹_›

/-- A known word of group E has the low byte that its instruction's encoding writes. -/
theorem encode_of_decodeGroupE {w : Word} {i : Instr} (hd : (fieldD1 w).toNat = 0xE) (h : decodeGroupE w = some i) :
    encode i = w := by
  unfold decodeGroupE at h
  split at h <;> cases h <;> exact formatI_fields hd ‹_›

/-- A known word of group F has the low byte that its instruction's encoding writes. -/
theorem encode_of_decodeGroupF {w : Word} {i : Instr} (hd : (fieldD1 w).toNat = 0xF) (h : decodeGroupF w = some i) :
    encode i = w := by
  unfold decodeGroupF at h
  split at h <;> cases h <;> exact formatI_fields hd ‹_›

/-- Settles O2: a word is its fields joined, and the decoder hands each operand field over whole, so that the encoding joins
them to the word again. -/
theorem encodeOfDecode : Obligations.EncodeOfDecode := by
  intro w i h
  unfold decode at h
  split at h
  case h_1 => exact encode_of_decodeGroup0 h
  case h_9 hd => exact encode_of_decodeGroup8 hd h
  case h_15 hd => exact encode_of_decodeGroupE hd h
  case h_16 hd => exact encode_of_decodeGroupF hd h
  case h_6 hd | h_10 hd =>
    split at h <;> cases h
    next hn => exact formatR_fields hd (congrArg BitVec.toNat hn)
  case h_14 hd => cases h; exact formatR_fields hd rfl
  case h_2 hd | h_3 hd | h_11 hd | h_12 hd => cases h; exact formatA_fields hd
  case h_17 => cases h
  all_goals cases h; exact formatI_fields ‹_› rfl

/-- A word decodes to an instruction exactly when it is that instruction's encoding. -/
theorem decode_eq_some_iff {w : Word} {i : Instr} : decode w = some i ↔ encode i = w :=
  ⟨encodeOfDecode w i, fun h => h ▸ decodeOfEncode i⟩

/-! The rows as masks (R96). A mask keeps the digits that select the instruction, so a match fixes those digits. -/

/-- Every encoding lies in its own row of the opcode map. -/
theorem encode_in_row (i : Instr) : Laws.TableRow.Statement i := by
  open Laws.TableRow in
  cases i
  exacts [nop, cls, ret, jp _, call _, sei _ _, snei _ _, ser _ _, ldi _ _, addi _ _, mov _ _, or _ _, and _ _, xor _ _,
    add _ _, sub _ _, shr _ _, subn _ _, shl _ _, sner _ _, seti _, jpv0 _, rnd _ _, drw _ _ _, skp _, sknp _, getdt _,
    wkey _, setdt _, setst _, addix _, glyph _, bcd _, stm _, ldm _]

/-- Words that agree under the mask of the first digit have the same first digit. -/
theorem fieldD1_eq_of_mask {w v : Word} (h : w &&& 0xF000 = v &&& 0xF000) : fieldD1 w = fieldD1 v := by
  rw [← word_eq_formatA w, ← word_eq_formatA v, formatA_and_mask, formatA_and_mask] at h
  simpa using congrArg fieldD1 h

/-- Words that agree under the mask of the first and the last digit have the same first and last digit. -/
theorem fieldD1_fieldN_eq_of_mask {w v : Word} (h : w &&& 0xF00F = v &&& 0xF00F) :
    fieldD1 w = fieldD1 v ∧ fieldN w = fieldN v := by
  rw [← word_eq_formatR w, ← word_eq_formatR v, formatR_and_mask_low, formatR_and_mask_low] at h
  exact ⟨by simpa using congrArg fieldD1 h, by simpa using congrArg fieldN h⟩

/-- Words that agree under the mask of the first digit and the low byte have the same first digit and low byte. -/
theorem fieldD1_fieldNN_eq_of_mask {w v : Word} (h : w &&& 0xF0FF = v &&& 0xF0FF) :
    fieldD1 w = fieldD1 v ∧ fieldNN w = fieldNN v := by
  rw [← word_eq_formatI w, ← word_eq_formatI v, formatI_and_mask_low, formatI_and_mask_low] at h
  exact ⟨by simpa using congrArg fieldD1 h, by simpa using congrArg fieldNN h⟩

/-- A word that agrees with an instruction's encoding under the mask of its row decodes to an instruction of that row: the
digits under the mask are all that the decoder selects by. -/
theorem decode_of_mask_eq_encode {w : Word} {i : Instr} (h : w &&& i.row.1 = encode i &&& i.row.1) :
    ∃ j, decode w = some j ∧ j.row = i.row := by
  cases i
  case nop | cls | ret =>
    simp only [Instr.row, show (0xFFFF : Word) = BitVec.allOnes 16 from rfl, and_mask_all] at h
    exact ⟨_, decode_eq_some_iff.2 h.symm, rfl⟩
  case jp | call | sei | snei | ldi | addi | seti | jpv0 | rnd | drw =>
    have hd := fieldD1_eq_of_mask h
    simp only [encode, fieldD1_formatA, fieldD1_formatI, fieldD1_formatR] at hd
    simp [decode, hd, Instr.row]
  case ser | sner | mov | or | and | xor | add | sub | shr | subn | shl =>
    obtain ⟨hd, hn⟩ := fieldD1_fieldN_eq_of_mask h
    simp only [encode, fieldD1_formatR, fieldN_formatR] at hd hn
    simp [decode, decodeGroup8, hd, hn, Instr.row]
  case skp | sknp =>
    obtain ⟨hd, hnn⟩ := fieldD1_fieldNN_eq_of_mask h
    simp only [encode, fieldD1_formatI, fieldNN_formatI] at hd hnn
    simp [decode, decodeGroupE, hd, hnn, Instr.row]
  all_goals
    obtain ⟨hd, hnn⟩ := fieldD1_fieldNN_eq_of_mask h
    simp only [encode, fieldD1_formatI, fieldNN_formatI] at hd hnn
    simp [decode, decodeGroupF, hd, hnn, Instr.row]

/-- Every row of the opcode map is the row of some instruction. -/
theorem exists_row_eq {r : Word × Word} (hr : r ∈ opcodeRows) : ∃ i : Instr, i.row = r := by
  have hrows : opcodeRows = [Instr.nop, .cls, .ret, .jp 0, .call 0, .sei 0 0, .snei 0 0, .ser 0 0, .ldi 0 0, .addi 0 0,
      .mov 0 0, .or 0 0, .and 0 0, .xor 0 0, .add 0 0, .sub 0 0, .shr 0 0, .subn 0 0, .shl 0 0, .sner 0 0, .seti 0,
      .jpv0 0, .rnd 0 0, .drw 0 0 0, .skp 0, .sknp 0, .getdt 0, .wkey 0, .setdt 0, .setst 0, .addix 0, .glyph 0, .bcd 0,
      .stm 0, .ldm 0].map Instr.row := rfl
  rw [hrows] at hr
  obtain ⟨i, -, hi⟩ := List.mem_map.1 hr
  exact ⟨i, hi⟩

/-- Settles O3: the row's match value is the masked encoding of the row's instructions, so a word that matches it agrees with
one of them in every digit the decoder selects by, and a decoded word is an encoding. -/
theorem rowSelectsByMask : Obligations.RowSelectsByMask := by
  intro w r hr
  constructor
  · intro hw
    obtain ⟨i, rfl⟩ := exists_row_eq hr
    exact decode_of_mask_eq_encode (hw.trans (encode_in_row i).1.symm)
  · rintro ⟨i, hi, rfl⟩
    rw [← encodeOfDecode w i hi]
    exact (encode_in_row i).1

/-! The unknown words (R97), group by group. -/

/-- Group 0 holds three known words. -/
theorem decodeGroup0_eq_none_iff {w : Word} :
    decodeGroup0 w = none ↔ w ≠ 0x0000#16 ∧ w ≠ 0x00E0#16 ∧ w ≠ 0x00EE#16 := by
  unfold decodeGroup0
  split_ifs <;> simp [*]

/-- Group 8 leaves seven values of the last digit unknown. -/
theorem decodeGroup8_eq_none_iff {w : Word} :
    decodeGroup8 w = none ↔ w.toNat % 16 ∈ [0x8, 0x9, 0xA, 0xB, 0xC, 0xD, 0xF] := by
  rw [← fieldN_toNat]
  have hlt : (fieldN w).toNat < 16 := (fieldN w).isLt
  unfold decodeGroup8
  split <;> simp_all
  omega

/-- Group E knows two low bytes. -/
theorem decodeGroupE_eq_none_iff {w : Word} : decodeGroupE w = none ↔ w.toNat % 256 ∉ [0x9E, 0xA1] := by
  rw [← fieldNN_toNat]
  unfold decodeGroupE
  split <;> simp_all

/-- Group F knows nine low bytes. -/
theorem decodeGroupF_eq_none_iff {w : Word} :
    decodeGroupF w = none ↔ w.toNat % 256 ∉ [0x07, 0x0A, 0x15, 0x18, 0x1E, 0x29, 0x33, 0x55, 0x65] := by
  rw [← fieldNN_toNat]
  unfold decodeGroupF
  split <;> simp_all

/-- SER and SNER leave every last digit but 0 unknown. -/
theorem ite_fieldN_eq_none_iff {w : Word} {i : Instr} :
    (if fieldN w = 0#4 then some i else none) = none ↔ w.toNat % 16 ≠ 0 := by
  rw [← fieldN_toNat, ite_eq_right_iff]
  simp [← BitVec.toNat_inj]

/-- Settles O4: the first digit selects the line of R97, and within the line its group says which words are unknown. -/
theorem unknownWordsAreTheListed : Obligations.UnknownWordsAreTheListed := by
  intro w
  have hzero : w.toNat < 0x1000 ↔ (fieldD1 w).toNat = 0 := by rw [fieldD1_toNat]; omega
  rw [hzero, ← fieldD1_toNat]
  have hlt : (fieldD1 w).toNat < 16 := (fieldD1 w).isLt
  unfold decode
  split
  case h_1 hd => simp only [hd, decodeGroup0_eq_none_iff]; simp
  case h_6 hd | h_10 hd => simp only [hd, ite_fieldN_eq_none_iff]; simp
  case h_9 hd => simp only [hd, decodeGroup8_eq_none_iff]; simp
  case h_15 hd => simp only [hd, decodeGroupE_eq_none_iff]; simp
  case h_16 hd => simp only [hd, decodeGroupF_eq_none_iff]; simp
  case h_17 => exfalso; simp only [imp_false] at *; omega
  all_goals simp [*]

/-- Settles O5: the eight words are the encodings of their instructions. -/
theorem listedWordsDecode : Obligations.ListedWordsDecode := by
  simp only [Obligations.ListedWordsDecode, decode_eq_some_iff]
  decide

end Sys2Proof
end

section
/-! Control flow (spec/40_control_flow.md) and the instruction cycle (spec/45_host_commands.md R213): what a step does in each
of its cases, and what jumps, skips, calls and returns answer. -/

namespace Sys2Proof.Machine

/-! A step, case by case. -/

/-- What answers a next state answers one only. -/
theorem next_unique {o : Result} {t u : State} (ht : o = .next t) (hu : o = .next u) : t = u :=
  Host.Outcome.next.inj (ht.symm.trans hu)

/-- A core that does not run is halted. -/
theorem State.halted_of_not_running {s : State} (h : ¬ s.running) : s.halted = true := by
  rwa [← State.halted_eq_false_iff, Bool.not_eq_false] at h

/-- A halted core stays as it is (R222). -/
theorem step_of_not_running {s : State} (h : ¬ s.running) : step s = .next s := by
  simp [step, tick, State.halted_of_not_running h]

/-- A running core whose next word does not lie in memory latches the fault of the fetch alone (R64, R90). -/
theorem step_of_fetch_outside {s : State} (hrun : s.running) (hpc : 4096 ≤ s.pc.toNat + 1) :
    step s = .next (s.latch (.memoryFault (max s.pc.toNat 4096))) := by
  simp [step, tick, State.halted_eq_false_iff.2 hrun, s.fetch_outside hpc, raise_eq]

/-- A running core that fetches an unknown word latches it with the fetch's effects in place (R232, R236). -/
theorem step_of_decode_eq_none {s : State} (hrun : s.running) (hpc : s.pc.toNat + 1 < 4096)
    (hdec : decode (s.wordAt s.pc.toNat) = none) :
    step s = .next ((s.fetched (s.wordAt s.pc.toNat)).latch (.decodeError (s.wordAt s.pc.toNat))) := by
  simp [step, tick, State.halted_eq_false_iff.2 hrun, s.fetch_inside hpc, runWord, hdec, raise_eq]

/-- Settles O6: the fetch reads the word big-endian, and the step executes what it decodes to. -/
theorem stepRunsDecodedInstruction : Obligations.StepRunsDecodedInstruction :=
  fun s _ hrun hpc hdec => ⟨s.wordAt_toNat s.pc.toNat, step_of_decode_eq_some hrun hpc hdec⟩

/-- Settles O7: the fetch checks its range first, and its fault is the whole effect of the step. -/
theorem fetchBeyondMemoryFaults : Obligations.FetchBeyondMemoryFaults :=
  fun _ hrun hpc => step_of_fetch_outside hrun hpc

/-- Settles O8: the decoder takes its fault in the state the fetch left. -/
theorem unknownWordFaults : Obligations.UnknownWordFaults :=
  fun _ hrun hpc hdec => step_of_decode_eq_none hrun hpc hdec

/-! Jumps. -/

@[simp] theorem exec_jp (nnn : Addr) (s : State) : exec (.jp nnn) s = .next (s.setPc (addrWord nnn)) := rfl

@[simp] theorem exec_jpv0 (nnn : Addr) (s : State) :
    exec (.jpv0 nnn) s = .next (s.setPc (jumpSum nnn (s.reg 0#4))) := rfl

/-- A write of the program counter leaves everything else as it was. -/
theorem State.setPc_frame (s : State) (v : Word) : s.setPc v = { s with pc := (s.setPc v).pc } := rfl

/-- An instruction that answers one write of the program counter, of a word whose value is `n`, goes to `n` and changes nothing
else. -/
theorem exec_writes_pc {i : Instr} {s : State} {v : Word} {n : Nat} (h : exec i s = .next (s.setPc v)) (hv : v.toNat = n) :
    ∃ t, exec i s = .next t ∧ t.pc.toNat = n ∧ t = { s with pc := t.pc } :=
  ⟨s.setPc v, h, hv, s.setPc_frame v⟩

/-- A running core at a jump to the program counter's own value changes nothing but `last` (R122). -/
theorem step_of_self_jump {s : State} {nnn : Addr} (hrun : s.running) (hpc : s.pc.toNat + 1 < 4096)
    (hdec : decode (s.wordAt s.pc.toNat) = some (.jp nnn)) (hself : addrWord nnn = s.pc) :
    step s = .next { s with last := s.wordAt s.pc.toNat } := by
  rw [step_of_decode_eq_some hrun hpc hdec, exec_jp, hself]
  rfl

/-- Settles O11: a jump is one write of the program counter, so a jump to its own address takes back the fetch's, and from 0xFFF
the next fetch leaves memory. -/
theorem jumpSetsPc : Obligations.JumpSetsPc := by
  refine ⟨fun w => decode_of_fieldD1_one, fun nnn s => exec_writes_pc (exec_jp nnn s) (addrWord_toNat nnn),
    fun nnn s hrun hpc hne hdec => ?self, fun s hrun => ⟨_, exec_jp 0xFFF s, ?beyond⟩⟩
  case self =>
    have hlt := nnn.isLt
    have hne' : nnn.toNat ≠ 0xFFF := fun h => hne (BitVec.eq_of_toNat_eq h)
    refine step_of_self_jump hrun (by omega) hdec (BitVec.eq_of_toNat_eq ?_)
    rw [addrWord_toNat, hpc]
  case beyond => exact step_of_fetch_outside (s := s.setPc 0xFFF) hrun (show 4096 ≤ (0xFFF#16).toNat + 1 by decide)

/-- Settles O12: the target is the exact sum. -/
theorem computedJumpAddsRegisterZero : Obligations.ComputedJumpAddsRegisterZero :=
  fun nnn s => exec_writes_pc (exec_jpv0 nnn s) (jumpSum_toNat nnn (s.reg 0))

/-- Settles O48: the word at the program counter jumps to it, so the step writes `last` alone, which no part of the convention
reads. -/
theorem finishedIsFixedPoint : Obligations.FinishedIsFixedPoint := by
  rintro s ⟨hrun, hpc, nnn, hdec, hself⟩
  exact ⟨_, step_of_self_jump hrun hpc hdec hself, rfl, hrun, hpc, nnn, hdec, hself⟩

/-! Skips. -/

/-- A skip whose condition says `p` adds 2 to the program counter exactly when `p` holds, and changes nothing else. -/
theorem State.skipIf_of_iff (s : State) {b : Bool} {p : Prop} [Decidable p] (h : b = true ↔ p) :
    s.skipIf b = { s with pc := if p then s.pc + 2 else s.pc } := by
  simp only [State.skipIf_eq, h]
  rfl

@[simp] theorem exec_sei (x : Nibble) (nn : Byte) (s : State) : exec (.sei x nn) s = .next (s.skipIf (s.reg x == nn)) := rfl

@[simp] theorem exec_snei (x : Nibble) (nn : Byte) (s : State) : exec (.snei x nn) s = .next (s.skipIf (s.reg x != nn)) := rfl

@[simp] theorem exec_ser (x y : Nibble) (s : State) : exec (.ser x y) s = .next (s.skipIf (s.reg x == s.reg y)) := rfl

@[simp] theorem exec_sner (x y : Nibble) (s : State) : exec (.sner x y) s = .next (s.skipIf (s.reg x != s.reg y)) := rfl

/-- Settles O13: each of the four is a skip whose condition is the comparison of its rule. -/
theorem skipsAddTwo : Obligations.SkipsAddTwo := by
  refine ⟨fun w => ⟨decode_of_fieldD1_three, decode_of_fieldD1_four, fun hd hn => ?ser, fun hd hn => ?sner⟩,
    fun x nn s => ⟨?_, ?_⟩, fun x y s => ⟨?_, ?_⟩, fun w hd hn => ?unknown,
    fun s hrun hpc => ⟨_, step_of_fetch_outside hrun (by omega)⟩⟩
  case ser => rw [decode_of_fieldD1_five hd, if_pos hn]
  case sner => rw [decode_of_fieldD1_nine hd, if_pos hn]
  case unknown =>
    obtain hd | hd := hd
    · rw [decode_of_fieldD1_five hd, if_neg hn]
    · rw [decode_of_fieldD1_nine hd, if_neg hn]
  · rw [exec_sei, s.skipIf_of_iff beq_iff_eq]
  · rw [exec_snei, s.skipIf_of_iff bne_iff_ne]
  · rw [exec_ser, s.skipIf_of_iff beq_iff_eq]
  · rw [exec_sner, s.skipIf_of_iff bne_iff_ne]

/-! Calls and returns. -/

/-- The state a CALL to `target` leaves where the stack has room: the program counter is pushed and then set (R123). -/
def State.called (s : State) (h : s.sp.val < 16) (target : Word) : State :=
  { s with stack := s.stack.set s.sp.val s.pc h, sp := ⟨s.sp.val + 1, Nat.succ_lt_succ h⟩, pc := target }

/-- The state a RET leaves where an entry is held: `sp` is lowered and the entry there goes to the program counter (R121). -/
def State.returned (s : State) (j : Fin 16) : State := { s with sp := j.castSucc, pc := s.stack[j] }

/-- What CALL does, said once (R123, R233). -/
theorem exec_call_cases (nnn : Addr) (s : State) :
    (∃ h : s.sp.val < 16, exec (.call nnn) s = .next (s.called h (addrWord nnn))) ∨
    s.sp.val = 16 ∧ exec (.call nnn) s = .next (s.latch (.stackFault .overflow)) := by
  simp only [exec, execCall]
  obtain ⟨h, hpush⟩ | ⟨hfull, hpush⟩ := s.push_cases s.pc
  · exact .inl ⟨h, by rw [hpush]; rfl⟩
  · exact .inr ⟨hfull, by rw [hpush]; rfl⟩

/-- What RET does, said once (R121, R233). -/
theorem exec_ret_cases (s : State) :
    (∃ j : Fin 16, j.val + 1 = s.sp.val ∧ exec .ret s = .next (s.returned j)) ∨
    s.sp.val = 0 ∧ exec .ret s = .next (s.latch (.stackFault .underflow)) := by
  simp only [exec, execRet]
  obtain ⟨h, hpop⟩ | ⟨hempty, hpop⟩ := s.pop_cases
  · have hlt := s.sp.isLt
    exact .inl ⟨⟨s.sp.val - 1, by omega⟩, Nat.sub_add_cancel h, by rw [hpop]; rfl⟩
  · exact .inr ⟨hempty, by rw [hpop]; rfl⟩

/-- CALL with room on the stack (R123). -/
theorem exec_call_of_room (nnn : Addr) {s : State} (h : s.sp.val < 16) :
    exec (.call nnn) s = .next (s.called h (addrWord nnn)) := by
  obtain ⟨_, hexec⟩ | ⟨hfull, -⟩ := exec_call_cases nnn s
  · exact hexec
  · omega

/-- RET with an entry held (R121). -/
theorem exec_ret_of_entry {s : State} {j : Fin 16} (hj : j.val + 1 = s.sp.val) : exec .ret s = .next (s.returned j) := by
  obtain ⟨k, hk, hexec⟩ | ⟨hempty, -⟩ := exec_ret_cases s
  · obtain rfl : k = j := Fin.ext (by omega)
    exact hexec
  · omega

/-- A slot after a CALL: the pushed program counter in the slot `sp`, every other slot as it was (R24, D15). -/
theorem State.called_stack_get (s : State) (h : s.sp.val < 16) (target : Word) (j : Fin 16) :
    (s.called h target).stack[j] = if j.val = s.sp.val then s.pc else s.stack[j] := by
  simp only [State.called, Fin.getElem_fin, Vector.getElem_set, eq_comm]

/-- Settles O14: with room on the stack CALL answers `State.called`, whose fields the statement lists. -/
theorem callPushesReturnAddress : Obligations.CallPushesReturnAddress :=
  fun nnn s h => ⟨_, exec_call_of_room nnn h, addrWord_toNat nnn, rfl, s.called_stack_get h (addrWord nnn), rfl⟩

/-- Settles O15: with an entry held RET answers `State.returned`, whose fields the statement lists. -/
theorem returnPopsAddress : Obligations.ReturnPopsAddress :=
  fun _ _ hj => ⟨_, exec_ret_of_entry hj, rfl, rfl, rfl⟩

/-- Settles O16: the two ends of the stack leave the other case of CALL and of RET. -/
theorem stackEndsFault : Obligations.StackEndsFault := by
  constructor
  · intro nnn s hfull
    obtain ⟨h, -⟩ | ⟨-, hexec⟩ := exec_call_cases nnn s
    · omega
    · exact hexec
  · intro s hempty
    obtain ⟨j, hj, -⟩ | ⟨-, hexec⟩ := exec_ret_cases s
    · omega
    · exact hexec

/-- A return right after a call restores the program counter and the stack pointer. -/
theorem State.returned_called (s : State) (h : s.sp.val < 16) (target : Word) :
    (s.called h target).returned ⟨s.sp.val, h⟩ = { s with stack := (s.called h target).stack } := by
  have hpc : (s.called h target).stack[(⟨s.sp.val, h⟩ : Fin 16)] = s.pc := by rw [State.called_stack_get, if_pos rfl]
  rw [State.returned, hpc]
  rfl

/-- Settles O17: the entry below the raised `sp` is the one the CALL pushed. -/
theorem callThenReturnResumes : Obligations.CallThenReturnResumes := by
  intro nnn s h
  have hret : exec .ret (s.called h (addrWord nnn)) = .next _ := exec_ret_of_entry (j := ⟨s.sp.val, h⟩) rfl
  refine ⟨_, _, exec_call_of_room nnn h, hret, ?_⟩
  rw [State.returned_called]

end Sys2Proof.Machine
end

section
/-! Arithmetic, logic, shifts and the random byte (spec/41_load_alu.md), and ADDIX (spec/42_index_memory.md R161). -/

namespace Sys2Proof.Machine

@[simp] theorem exec_or (x y : Nibble) (s : State) : exec (.or x y) s = .next (s.setReg x (s.reg x ||| s.reg y)) := rfl

@[simp] theorem exec_and (x y : Nibble) (s : State) : exec (.and x y) s = .next (s.setReg x (s.reg x &&& s.reg y)) := rfl

@[simp] theorem exec_xor (x y : Nibble) (s : State) : exec (.xor x y) s = .next (s.setReg x (s.reg x ^^^ s.reg y)) := rfl

@[simp] theorem exec_add (x y : Nibble) (s : State) : exec (.add x y) s =
    .next (resultThenFlag x (addBytes (s.reg x) (s.reg y)) (carry (s.reg x) (s.reg y)) s) := rfl

@[simp] theorem exec_sub (x y : Nibble) (s : State) : exec (.sub x y) s =
    .next (resultThenFlag x (subBytes (s.reg x) (s.reg y)) (noBorrow (s.reg x) (s.reg y)) s) := rfl

@[simp] theorem exec_subn (x y : Nibble) (s : State) : exec (.subn x y) s =
    .next (resultThenFlag x (subBytes (s.reg y) (s.reg x)) (noBorrow (s.reg y) (s.reg x)) s) := rfl

@[simp] theorem exec_shr (x y : Nibble) (s : State) :
    exec (.shr x y) s = .next (flagThenShift x (lowBit (s.reg x)) shiftRight s) := rfl

@[simp] theorem exec_shl (x y : Nibble) (s : State) :
    exec (.shl x y) s = .next (flagThenShift x (highBit (s.reg x)) shiftLeft s) := rfl

@[simp] theorem exec_rnd (x : Nibble) (nn : Byte) (s : State) :
    exec (.rnd x nn) s = .next (randomInto x nn s.randomByte s).countDraw := rfl

@[simp] theorem exec_addix (x : Nibble) (s : State) :
    exec (.addix x) s = .next (s.setIndex (indexAdd s.index (s.reg x))) := rfl

/-- An instruction that answers one register write changes that register's bits and nothing else. -/
theorem exec_writes_bits {i : Instr} {s : State} {x : Nibble} {v : Byte} (h : exec i s = .next (s.setReg x v)) :
    ∃ t, exec i s = .next t ∧ t = { s with regs := t.regs } ∧
      ∀ r k, (t.reg r).getLsbD k = if r = x then v.getLsbD k else (s.reg r).getLsbD k := by
  obtain ⟨t, hexec, hreg, hframe⟩ := exec_writes_one_reg h
  refine ⟨t, hexec, hframe, fun r k => ?_⟩
  rw [hreg r, apply_ite (BitVec.getLsbD · k)]

/-- Settles O20: each of the three is one register write, and the written byte is combined bit by bit. -/
theorem logicIsBitwiseWithoutFlag : Obligations.LogicIsBitwiseWithoutFlag := fun x y s =>
  ⟨by simpa only [BitVec.getLsbD_or] using exec_writes_bits (exec_or x y s),
    by simpa only [BitVec.getLsbD_and] using exec_writes_bits (exec_and x y s),
    by simpa only [BitVec.getLsbD_xor] using exec_writes_bits (exec_xor x y s)⟩

/-- An instruction that answers a result and then a flag writes the two registers in that order and nothing else, so that with
X = 0xF the flag stays (D11). -/
theorem exec_writes_result_then_flag {i : Instr} {s : State} {x : Nibble} {v : Byte} {b : Bool} {n : Nat} {p : Prop}
    [Decidable p] (h : exec i s = .next (resultThenFlag x v b s)) (hresult : v.toNat = n) (hflag : b = true ↔ p) :
    ∃ t, exec i s = .next t ∧ t = { s with regs := t.regs } ∧ ∀ r, (t.reg r).toNat =
      if r = 0xF#4 then (if p then 1 else 0) else if r = x then n else (s.reg r).toNat := by
  refine ⟨_, h, resultThenFlag_frame x v b s, fun r => ?_⟩
  rw [resultThenFlag_reg]
  simp only [apply_ite BitVec.toNat, flagByte_toNat, hresult, hflag]

theorem carry_eq_true_iff {a b : Byte} : carry a b = true ↔ a.toNat + b.toNat > 255 := decide_eq_true_iff

theorem noBorrow_eq_true_iff {a b : Byte} : noBorrow a b = true ↔ a.toNat ≥ b.toNat := decide_eq_true_iff

/-- Settles O21: ADD is the rule for a result and then a flag, with the sum and its carry. -/
theorem addWritesSumThenCarry : Obligations.AddWritesSumThenCarry := fun x y s =>
  exec_writes_result_then_flag (exec_add x y s) (addBytes_toNat (s.reg x) (s.reg y)) carry_eq_true_iff

/-- Settles O22: SUB is the rule for a result and then a flag, with the difference and its borrow. -/
theorem subWritesDifferenceThenNoBorrow : Obligations.SubWritesDifferenceThenNoBorrow := fun x y s =>
  exec_writes_result_then_flag (exec_sub x y s) (subBytes_toNat (s.reg x) (s.reg y)) noBorrow_eq_true_iff

/-- Settles O23: SUBN is SUB's rule with the operands exchanged. -/
theorem subnWritesDifferenceThenNoBorrow : Obligations.SubnWritesDifferenceThenNoBorrow := fun x y s =>
  exec_writes_result_then_flag (exec_subn x y s) (subBytes_toNat (s.reg y) (s.reg x)) noBorrow_eq_true_iff

/-- An instruction that answers a flag and then a shift writes the two registers in that order and nothing else: with X = 0xF the
flag is what is shifted (D11). -/
theorem exec_writes_flag_then_shift {i : Instr} {s : State} {x : Nibble} {b : Bool} {shift : Byte → Byte} {n m k : Nat}
    (h : exec i s = .next (flagThenShift x b shift s)) (hflag : (flagByte b).toNat = n)
    (hshifted : (shift (s.reg x)).toNat = m) (hflagShifted : (shift (flagByte b)).toNat = k) :
    ∃ t, exec i s = .next t ∧ t = { s with regs := t.regs } ∧ ∀ r, (t.reg r).toNat =
      if r = x then (if x = 0xF#4 then k else m) else if r = 0xF#4 then n else (s.reg r).toNat := by
  refine ⟨_, h, flagThenShift_frame x b shift s, fun r => ?_⟩
  rw [flagThenShift_reg]
  simp only [apply_ite shift, apply_ite BitVec.toNat, hflag, hshifted, hflagShifted]

/-- A flag halved is 0. -/
theorem shiftRight_flagByte_toNat (b : Bool) : (shiftRight (flagByte b)).toNat = 0 := by cases b <;> decide

/-- The bit shifted out to the left, as a flag and doubled: it does not wrap. -/
theorem shiftLeft_flagByte_highBit_toNat (a : Byte) : (shiftLeft (flagByte (highBit a))).toNat = 2 * (a.toNat / 128) := by
  have ha := a.isLt
  rw [shiftLeft_toNat, flagByte_highBit_toNat]
  omega

/-- Settles O24: SHR is the rule for a flag and then a shift; a halved flag is 0. -/
theorem shiftRightWritesFlagThenHalf : Obligations.ShiftRightWritesFlagThenHalf := fun x y s =>
  exec_writes_flag_then_shift (exec_shr x y s) (flagByte_lowBit_toNat (s.reg x)) (shiftRight_toNat (s.reg x))
    (shiftRight_flagByte_toNat (lowBit (s.reg x)))

/-- Settles O25: SHL is the rule for a flag and then a shift; a doubled flag does not wrap. -/
theorem shiftLeftWritesFlagThenDouble : Obligations.ShiftLeftWritesFlagThenDouble := fun x y s =>
  exec_writes_flag_then_shift (exec_shl x y s) (flagByte_highBit_toNat (s.reg x)) (shiftLeft_toNat (s.reg x))
    (shiftLeft_flagByte_highBit_toNat (s.reg x))

/-- Settles O26: for whatever byte is drawn, the mask clears the bits that are 0 in NN. -/
theorem randomByteIsMasked : Obligations.RandomByteIsMasked := by
  refine fun x nn s => ⟨_, exec_rnd x nn s, randomInto_reg x nn s.randomByte s, fun k hk => ?_, rfl⟩
  rw [State.countDraw_reg, randomInto_reg, if_pos rfl, BitVec.getLsbD_and, hk, Bool.and_false]

/-- Settles O28: ADDIX is one write of I. -/
theorem addToIndexWrapsWithoutFlag : Obligations.AddToIndexWrapsWithoutFlag :=
  fun x s => exec_writes_index (exec_addix x s) (indexAdd_toNat s.index (s.reg x))

end Sys2Proof.Machine
end

section
/-! The key instructions (spec/44_keys_timers.md): the key that SKP and SKNP test, and the scan of WKEY. -/

namespace Sys2Proof.Machine

/-- A key number of four bits reads its key. -/
theorem State.keyDown_toNat (s : State) (k : Nibble) : s.keyDown k.toNat = s.keys[k.toNat]'(k.isLt) := by
  have hk : k.toNat < 16 := k.isLt
  simp only [State.keyDown, Vector.getElem?_eq_getElem hk, Option.getD_some]

/-- An operation on the key of a register's value goes on with the key's state, or takes the fault of an index out of range
(R69, R235, D9). -/
theorem settle_key_cases (s : State) (k : Byte) (f : Bool → State) :
    k.toNat < 16 ∧ settle s ((s.key k).map f) = .next (f (s.keyDown k.toNat)) ∨
    16 ≤ k.toNat ∧ settle s ((s.key k).map f) = .next (s.latch (.keyIndexFault k)) := by
  by_cases h : k.toNat < 16
  · exact .inl ⟨h, by rw [s.key_inside k h]; rfl⟩
  · exact .inr ⟨Nat.le_of_not_lt h, by rw [s.key_outside k (Nat.le_of_not_lt h)]; rfl⟩

theorem exec_skp (x : Nibble) (s : State) :
    exec (.skp x) s = settle s ((s.key (s.reg x)).map fun pressed => s.skipIf pressed) := rfl

theorem exec_sknp (x : Nibble) (s : State) :
    exec (.sknp x) s = settle s ((s.key (s.reg x)).map fun pressed => s.skipIf (!pressed)) := rfl

/-- A key index in range reads its key. -/
theorem settle_key_of_lt {s : State} {k : Byte} (f : Bool → State) (h : k.toNat < 16) :
    settle s ((s.key k).map f) = .next (f (s.keyDown k.toNat)) := by
  obtain ⟨-, hnext⟩ | ⟨hge, -⟩ := settle_key_cases s k f
  · exact hnext
  · omega

/-- A key index out of range is latched. -/
theorem settle_key_of_ge {s : State} {k : Byte} (f : Bool → State) (h : 16 ≤ k.toNat) :
    settle s ((s.key k).map f) = .next (s.latch (.keyIndexFault k)) := by
  obtain ⟨hlt, -⟩ | ⟨-, hnext⟩ := settle_key_cases s k f
  · omega
  · exact hnext

/-- Settles O37: SKP and SKNP are skips on the key that x[X] names. -/
theorem keySkipsTestTheKey : Obligations.KeySkipsTestTheKey := by
  intro x k s hk
  have hlt : (s.reg x).toNat < 16 := hk ▸ k.isLt
  rw [exec_skp, exec_sknp, settle_key_of_lt _ hlt, settle_key_of_lt _ hlt, hk, s.keyDown_toNat, s.skipIf_of_iff Iff.rfl,
    s.skipIf_of_iff (p := ¬ s.keys[k.toNat]'(k.isLt) = true) (by simp), ite_not]
  exact ⟨rfl, rfl⟩

/-- Settles O38: both skips read their key first, and the read takes the fault. -/
theorem keyIndexOfSixteenFaults : Obligations.KeyIndexOfSixteenFaults :=
  fun x s h => ⟨(exec_skp x s).trans (settle_key_of_ge _ h), (exec_sknp x s).trans (settle_key_of_ge _ h)⟩

/-- A key index below 16 is a key number of four bits. -/
theorem exists_nibble {m : Nat} (hm : m < 16) : ∃ j : Nibble, j.toNat = m :=
  ⟨BitVec.ofNat 4 m, (BitVec.toNat_ofNat m 4).trans (Nat.mod_eq_of_lt hm)⟩

/-- The scan finds the key that is down with none below it (D13). -/
theorem State.lowestKey_of_least {s : State} {k : Nibble} (hk : s.keys[k.toNat]'(k.isLt) = true)
    (hleast : ∀ j : Nibble, j.toNat < k.toNat → s.keys[j.toNat]'(j.isLt) = false) : s.lowestKey = some k.toNat := by
  rw [← State.keyDown_toNat] at hk
  cases hscan : s.lowestKey with
  | none =>
    have hup := s.lowestKey_eq_none hscan k.toNat k.isLt
    simp [hk] at hup
  | some m =>
    obtain ⟨hm, hdown, hbelow⟩ := s.lowestKey_eq_some hscan
    obtain ⟨j, rfl⟩ := exists_nibble hm
    have hge : ¬ k.toNat < j.toNat := fun h => by simp [hbelow _ h] at hk
    have hle : ¬ j.toNat < k.toNat := fun h => by simp [s.keyDown_toNat, hleast j h] at hdown
    rw [Nat.le_antisymm (Nat.le_of_not_lt hge) (Nat.le_of_not_lt hle)]

/-- The scan finds nothing with every key up. -/
theorem State.lowestKey_of_all_up {s : State} (h : ∀ j : Nibble, s.keys[j.toNat]'(j.isLt) = false) :
    s.lowestKey = none := by
  cases hscan : s.lowestKey with
  | none => rfl
  | some m =>
    obtain ⟨hm, hdown, -⟩ := s.lowestKey_eq_some hscan
    obtain ⟨j, rfl⟩ := exists_nibble hm
    simp [s.keyDown_toNat, h j] at hdown

/-- WKEY with a key found (R192). -/
theorem exec_wkey_of_some {x : Nibble} {s : State} {k : Nat} (h : s.lowestKey = some k) :
    exec (.wkey x) s = .next (s.setReg x (BitVec.ofNat 8 k)) := by
  simp only [exec, execWkey, h]

/-- WKEY with no key found (R192). -/
theorem exec_wkey_of_none {x : Nibble} {s : State} (h : s.lowestKey = none) :
    exec (.wkey x) s = .next (s.setPc (s.pc - 2)) := by
  simp only [exec, execWkey, h]

/-- Settles O39: the scan stops at that key, and its index fits a byte. -/
theorem keyWaitStoresLowestKey : Obligations.KeyWaitStoresLowestKey := by
  intro x k s hk hleast
  obtain ⟨t, hexec, hreg, hframe⟩ := exec_writes_one_reg (exec_wkey_of_some (x := x) (State.lowestKey_of_least hk hleast))
  refine ⟨t, hexec, fun r => ?_, hframe⟩
  have hlt : k.toNat < 16 := k.isLt
  rw [hreg r, apply_ite BitVec.toNat, BitVec.toNat_ofNat, Nat.mod_eq_of_lt (by omega)]

/-- Settles O40: the execute phase takes back what the fetch added to the program counter. -/
theorem keyWaitReplays : Obligations.KeyWaitReplays := by
  have hexec : ∀ (x : Nibble) (s : State), (∀ j : Nibble, s.keys[j.toNat]'(j.isLt) = false) →
      exec (.wkey x) s = .next { s with pc := s.pc - 2 } :=
    fun x s hup => exec_wkey_of_none (State.lowestKey_of_all_up hup)
  refine ⟨hexec, fun x s hup hrun hpc hdec => ?_⟩
  rw [step_of_decode_eq_some hrun hpc hdec, hexec x (s.fetched _) hup, State.fetched_pc, BitVec.add_sub_cancel]
  rfl

end Sys2Proof.Machine
end

section
/-! The memory transfers (spec/42_index_memory.md sections 2 and 3): a byte read after a store, what BCD, STM and LDM answer with
their range in memory, and the fault of a range that leaves it. -/

namespace Sys2Proof.Machine

/-- A byte inside the stored range is the one stored there. -/
theorem State.store_read_inside (s : State) {a k : Nat} {bytes : List Byte} {v : Byte} (h : bytes[k]? = some v) :
    (s.store a bytes).mem.read (a + k) = v := by
  obtain ⟨hk, -⟩ := List.getElem?_eq_some_iff.1 h
  rw [State.store_mem, Memory.read_writeBytes, if_pos (by omega), Nat.add_sub_cancel_left, List.getD_eq_getElem?_getD, h,
    Option.getD_some]

/-- A byte outside the stored range is as it was. -/
theorem State.store_read_outside (s : State) {a b : Nat} {bytes : List Byte} (h : b < a ∨ a + bytes.length ≤ b) :
    (s.store a bytes).mem.read b = s.mem.read b := by
  rw [State.store_mem, Memory.read_writeBytes, if_neg (by omega)]

/-- A store leaves everything but memory as it was. -/
theorem State.store_frame (s : State) (a : Nat) (bytes : List Byte) :
    s.store a bytes = { s with mem := (s.store a bytes).mem } := rfl

/-- A transfer with its range in memory answers the state it was given. -/
theorem transfer_of_inside {len : Nat} {s : State} (t : State) (h : s.index.toNat + len ≤ 4096) :
    transfer len t s = .next t := by
  obtain ⟨-, hnext⟩ | ⟨hbeyond, -⟩ := transfer_cases len t s
  · exact hnext
  · omega

/-- A transfer whose range leaves memory latches the lowest address out of bounds and changes nothing else (D5, D6, D7). -/
theorem transfer_of_beyond {len : Nat} {s : State} (t : State) (hlen : 0 < len) (h : 4096 < s.index.toNat + len) :
    transfer len t s = .next (s.latch (.memoryFault (max s.index.toNat 4096))) := by
  obtain ⟨hinside, -⟩ | ⟨-, hnext⟩ := transfer_cases len t s
  · omega
  · exact hnext

theorem exec_bcd (x : Nibble) (s : State) :
    exec (.bcd x) s = transfer 3 (s.store (effAddr s.index 0) (decimalDigits (s.reg x))) s := rfl

theorem exec_stm (x : Nibble) (s : State) :
    exec (.stm x) s = transfer (x.toNat + 1) (s.store (effAddr s.index 0) (s.regRun x)) s := rfl

theorem exec_ldm (x : Nibble) (s : State) :
    exec (.ldm x) s = transfer (x.toNat + 1) (s.loadRun x (effAddr s.index 0)) s := rfl

/-- Settles O29: the three stored bytes are the digits, none of which needs more than a byte. -/
theorem bcdStoresThreeDigits : Obligations.BcdStoresThreeDigits := by
  intro x s h
  have hlt := (s.reg x).isLt
  have hdigit : ∀ k v, (decimalDigits (s.reg x))[k]? = some (BitVec.ofNat 8 v) → v < 256 →
      ((s.store (effAddr s.index 0) (decimalDigits (s.reg x))).mem.read (effAddr s.index k)).toNat = v := by
    intro k v hk hv
    rw [show effAddr s.index k = effAddr s.index 0 + k from rfl, s.store_read_inside hk, BitVec.toNat_ofNat,
      Nat.mod_eq_of_lt hv]
  refine ⟨_, (exec_bcd x s).trans (transfer_of_inside _ h), hdigit 0 _ rfl (by omega), hdigit 1 _ rfl (by omega),
    hdigit 2 _ rfl (by omega), fun a ha => s.store_read_outside ?_, s.store_frame _ _⟩
  rw [length_decimalDigits]
  simp only [effAddr] at ha ⊢
  omega

/-- Settles O30: the stored bytes are the registers in order. -/
theorem storeRunWritesRegisters : Obligations.StoreRunWritesRegisters := by
  intro x s h
  refine ⟨_, (exec_stm x s).trans (transfer_of_inside _ (by omega)),
    fun r hr => s.store_read_inside (s.getElem?_regRun x r hr), fun a ha => s.store_read_outside ?_, s.store_frame _ _⟩
  rw [State.length_regRun]
  simp only [effAddr] at ha ⊢
  omega

/-- Settles O31: with its range in memory LDM is one block load. -/
theorem loadRunReadsRegisters : Obligations.LoadRunReadsRegisters := fun x s h =>
  ⟨_, (exec_ldm x s).trans (transfer_of_inside _ (by omega)), s.loadRun_reg x (effAddr s.index 0), rfl⟩

/-- Settles O32: LDM reads the addresses that STM wrote. -/
theorem storedRunIsLoadedBack : Obligations.StoredRunIsLoadedBack := by
  intro x s h
  obtain ⟨t, hstm, hstored, -, -⟩ := storeRunWritesRegisters x s h
  refine ⟨t, hstm, fun u hmem hindex => ?_⟩
  obtain ⟨v, hldm, hloaded, -⟩ := loadRunReadsRegisters x u (hindex ▸ h)
  refine ⟨v, hldm, fun r hr => ?_⟩
  rw [hloaded r, if_pos hr, hmem, hindex, hstored r hr]

/-- DRW with its sprite in memory, or with no rows, draws and then writes the flag (R181). -/
theorem exec_drw_of_inside {x y n : Nibble} {s : State} (h : n.toNat = 0 ∨ s.index.toNat + n.toNat ≤ 4096) :
    exec (.drw x y n) s = .next ((s.setFb (s.draw x y n).fb).setFlag (s.draw x y n).collision) := by
  obtain ⟨-, hnext⟩ | ⟨hbeyond, -⟩ := execDrw_cases x y n s
  · exact hnext
  · omega

/-- DRW of at least one row whose sprite leaves memory latches the lowest address out of bounds and changes nothing else. -/
theorem exec_drw_of_beyond {x y n : Nibble} {s : State} (hn : 0 < n.toNat) (h : 4096 < s.index.toNat + n.toNat) :
    exec (.drw x y n) s = .next (s.latch (.memoryFault (max s.index.toNat 4096))) := by
  obtain ⟨hinside, -⟩ | ⟨-, hnext⟩ := execDrw_cases x y n s
  · omega
  · exact hnext

/-- Settles O33: all four check their range before they touch anything. -/
theorem rangeBeyondMemoryFaults : Obligations.RangeBeyondMemoryFaults :=
  ⟨fun x s _ => (exec_bcd x s).trans (transfer_of_beyond _ (by omega) (by omega)),
    fun x s _ => ⟨(exec_stm x s).trans (transfer_of_beyond _ (by omega) (by omega)),
      (exec_ldm x s).trans (transfer_of_beyond _ (by omega) (by omega))⟩,
    fun _ _ _ _ hn _ => exec_drw_of_beyond hn (by omega)⟩

end Sys2Proof.Machine
end

section
/-! The draw (spec/43_display.md R181): its sprite's rows cover the cells the statement names, and drawing twice restores the
framebuffer. -/

namespace Sys2Proof.Machine

/-- A byte of the sprite is the byte of memory at its row. -/
theorem State.getElem?_sprite_eq_some_iff (s : State) {n : Nibble} {row : Nat} {byte : Byte} :
    (s.sprite n)[row]? = some byte ↔ row < n.toNat ∧ s.mem.read (effAddr s.index row) = byte := by
  by_cases h : row < n.toNat
  · have hread : (s.sprite n)[row]? = some (s.mem.read (effAddr s.index row)) := s.mem.getElem?_readBytes n.toNat _ row h
    simp [hread, h]
  · have hnone : (s.sprite n)[row]? = none := by
      rw [List.getElem?_eq_none_iff, State.sprite, Memory.length_readBytes]
      omega
    simp [hnone, h]

/-- The cells that the rows of the drawn sprite cover are those of the closed form (R181). -/
theorem rowsCover_sprite_iff (s : State) (x y n : Nibble) (v : Fin 32) (u : Fin 64) :
    rowsCover (s.reg x) (s.reg y) 0 (s.sprite n) v u ↔ s.spriteCovers x y n v u := by
  simp only [rowsCover, columnsCover, s.getElem?_sprite_eq_some_iff, spriteBit, Fin.ext_iff, pixelX_val, pixelY_val,
    Nat.zero_add]
  constructor
  · rintro ⟨row, byte, ⟨hrow, rfl⟩, hv, column, -, hcolumn, hbit, hu⟩
    exact ⟨row, column, hrow, hcolumn, hbit, hu, hv⟩
  · rintro ⟨row, column, hrow, hcolumn, hbit, hu, hv⟩
    exact ⟨row, _, ⟨hrow, rfl⟩, hv, column, Nat.zero_le column, hcolumn, hbit, hu⟩

/-- What a draw does to the cells and to the collision, in closed form (R181). -/
theorem State.draw_spec (s : State) (x y n : Nibble) :
    (∀ v u, (s.spriteCovers x y n v u → (s.draw x y n).fb.get v u = !(s.fb.get v u)) ∧
      (¬ s.spriteCovers x y n v u → (s.draw x y n).fb.get v u = s.fb.get v u)) ∧
    ((s.draw x y n).collision = true ↔ ∃ v u, s.spriteCovers x y n v u ∧ s.fb.get v u = true) := by
  have hlen : 0 + (s.sprite n).length ≤ 32 := by
    have hn := n.isLt
    rw [State.sprite, Memory.length_readBytes]
    omega
  simpa [rowsCover_sprite_iff, State.draw, drawSprite] using
    drawRows_spec (s.reg x) (s.reg y) (s.sprite n) 0 { fb := s.fb, collision := false } hlen

/-- Settles O35: the loop over rows and columns covers the cells of the closed form, and VF is written last. -/
theorem drawInvertsCoveredCells : Obligations.DrawInvertsCoveredCells := by
  intro x y n s h
  obtain ⟨hcells, hcollision⟩ := s.draw_spec x y n
  refine ⟨_, exec_drw_of_inside h, hcells, fun hon => ?_, fun hoff => ?_, fun r hr => ?_, rfl⟩
  · rw [State.setFlag_reg, if_pos rfl, hcollision.2 hon]
    rfl
  · rw [State.setFlag_reg, if_pos rfl, Bool.eq_false_iff.2 (mt hcollision.1 hoff)]
    rfl
  · rw [State.setFlag_reg, if_neg hr, State.setFb_reg]

/-- The cells a sprite covers depend on memory, I and the two coordinate registers alone. -/
theorem State.spriteCovers_congr {s t : State} {x y n : Nibble} (hmem : t.mem = s.mem) (hindex : t.index = s.index)
    (hx : t.reg x = s.reg x) (hy : t.reg y = s.reg y) (v : Fin 32) (u : Fin 64) :
    t.spriteCovers x y n v u ↔ s.spriteCovers x y n v u := by
  simp only [State.spriteCovers, hmem, hindex, hx, hy]

/-- Settles O36: the second draw covers the cells of the first, and a cell inverted twice is as it was. -/
theorem drawTwiceRestoresFramebuffer : Obligations.DrawTwiceRestoresFramebuffer := by
  intro x y n s hx hy h
  obtain ⟨t, hfirst, htcells, -, -, htreg, hframe⟩ := drawInvertsCoveredCells x y n s h
  have hmem : t.mem = s.mem := by rw [hframe]
  have hindex : t.index = s.index := by rw [hframe]
  have hcovers := State.spriteCovers_congr (n := n) hmem hindex (htreg x hx) (htreg y hy)
  obtain ⟨u, hsecond, hucells, -⟩ := drawInvertsCoveredCells x y n t (hindex ▸ h)
  refine ⟨t, u, hfirst, hsecond, Framebuffer.ext_get fun row column => ?_⟩
  by_cases hc : s.spriteCovers x y n row column
  · rw [(hucells row column).1 ((hcovers row column).2 hc), (htcells row column).1 hc, Bool.not_not]
  · rw [(hucells row column).2 (mt (hcovers row column).1 hc), (htcells row column).2 hc]

end Sys2Proof.Machine
end

section
/-! The whole machine: what every instruction can do, said once as a relation, and what follows for faults, for the writers of
each item (spec/10_state.md R34) and for the items nothing reads. -/

namespace Sys2Proof

/-- The instructions that write register `r` (R34, R21). -/
def Instr.WritesReg (i : Instr) (r : Nibble) : Prop :=
  (∃ nn, i = .ldi r nn ∨ i = .addi r nn ∨ i = .rnd r nn) ∨
  (∃ y, i = .mov r y ∨ i = .or r y ∨ i = .and r y ∨ i = .xor r y) ∨
  (∃ x y, (r = x ∨ r = 0xF#4) ∧ (i = .add x y ∨ i = .sub x y ∨ i = .shr x y ∨ i = .subn x y ∨ i = .shl x y)) ∨
  (r = 0xF#4 ∧ ∃ x y n, i = .drw x y n) ∨
  i = .getdt r ∨ i = .wkey r ∨
  (∃ x, r.toNat ≤ x.toNat ∧ i = .ldm x)

/-- The instructions that write the program counter (R23). -/
def Instr.WritesPc (i : Instr) : Prop :=
  i = .ret ∨ (∃ nnn, i = .jp nnn ∨ i = .call nnn ∨ i = .jpv0 nnn) ∨
  (∃ x nn, i = .sei x nn ∨ i = .snei x nn) ∨ (∃ x y, i = .ser x y ∨ i = .sner x y) ∨
  ∃ x, i = .skp x ∨ i = .sknp x ∨ i = .wkey x

/-- The instructions that can latch a fault (R230). -/
def Instr.CanFault (i : Instr) : Prop :=
  i = .ret ∨ (∃ nnn, i = .call nnn) ∨ (∃ x y n, i = .drw x y n) ∨
  ∃ x, i = .bcd x ∨ i = .stm x ∨ i = .ldm x ∨ i = .skp x ∨ i = .sknp x

namespace Machine

/-- What the execute phase of an instruction can do to the state the fetch left: one constructor per set of items that is written
together, with the instructions that write it and the ranges of what is written. -/
inductive Effect (s : State) : Instr → State → Prop
  | nothing : Effect s .nop s
  | fault {i : Instr} (f : Fault) (hi : i.CanFault) : Effect s i (s.latch f)
  | regs {i : Instr} {t : State} (ht : t = { s with regs := t.regs }) (hi : ∀ r, t.reg r ≠ s.reg r → i.WritesReg r) :
      Effect s i t
  | random (x : Nibble) (nn v : Byte) : Effect s (.rnd x nn) (s.setReg x v).countDraw
  | pc {i : Instr} {v : Word} (hi : i.WritesPc)
      (hv : v = s.pc ∨ v = s.pc + 2 ∨ v = s.pc - 2 ∨ v.toNat ≤ pcLimit) : Effect s i (s.setPc v)
  | index {i : Instr} (v : Word) (hi : (∃ nnn, i = .seti nnn) ∨ ∃ x, i = .addix x ∨ i = .glyph x) :
      Effect s i (s.setIndex v)
  | delay (x : Nibble) (v : Byte) : Effect s (.setdt x) (s.setDelay v)
  | sound (x : Nibble) (v : Byte) : Effect s (.setst x) (s.setSound v)
  | clear (g : Framebuffer) : Effect s .cls (s.setFb g)
  | draw (x y n : Nibble) (g : Framebuffer) (b : Bool) : Effect s (.drw x y n) ((s.setFb g).setFlag b)
  | store {i : Instr} {a : Nat} {bytes : List Byte} (hi : ∃ x, i = .bcd x ∨ i = .stm x) (ha : a + bytes.length ≤ 4096) :
      Effect s i (s.store a bytes)
  | call (nnn : Addr) (h : s.sp.val < 16) : Effect s (.call nnn) (s.called h (addrWord nnn))
  | ret (j : Fin 16) (hj : j.val + 1 = s.sp.val) : Effect s .ret (s.returned j)

/-- One register write is an effect of the instructions that write that register. -/
theorem Effect.setReg {s : State} {i : Instr} {x : Nibble} {v : Byte} (hi : i.WritesReg x) : Effect s i (s.setReg x v) := by
  refine .regs (s.setReg_frame x v) fun r hr => ?_
  obtain rfl : r = x := by_contra fun hne => hr (by rw [State.setReg_reg, if_neg hne])
  exact hi

/-- A change of register X and of the flag is an effect of the instructions that write both. -/
theorem Effect.regAndFlag {s t : State} {i : Instr} {x : Nibble} (ht : t = { s with regs := t.regs })
    (hx : i.WritesReg x) (hf : i.WritesReg 0xF#4) (hreg : ∀ r, r ≠ x → r ≠ 0xF#4 → t.reg r = s.reg r) : Effect s i t := by
  refine .regs ht fun r hr => ?_
  by_cases hrx : r = x
  · exact hrx ▸ hx
  by_cases hrf : r = 0xF#4
  · exact hrf ▸ hf
  · exact absurd (hreg r hrx hrf) hr

/-- A result and then a flag. -/
theorem Effect.resultThenFlag {s : State} {i : Instr} {x : Nibble} {v : Byte} {b : Bool} (hx : i.WritesReg x)
    (hf : i.WritesReg 0xF#4) : Effect s i (resultThenFlag x v b s) :=
  .regAndFlag (resultThenFlag_frame x v b s) hx hf fun r hrx hrf => by rw [resultThenFlag_reg, if_neg hrf, if_neg hrx]

/-- A flag and then a shift. -/
theorem Effect.flagThenShift {s : State} {i : Instr} {x : Nibble} {b : Bool} {shift : Byte → Byte} (hx : i.WritesReg x)
    (hf : i.WritesReg 0xF#4) : Effect s i (flagThenShift x b shift s) :=
  .regAndFlag (flagThenShift_frame x b shift s) hx hf fun r hrx hrf => by rw [flagThenShift_reg, if_neg hrx, if_neg hrf]

/-- A block load is an effect of LDM alone: no register above X changes. -/
theorem Effect.loadRun {s : State} {x : Nibble} {a : Nat} : Effect s (.ldm x) (s.loadRun x a) := by
  refine .regs rfl fun r hr => ?_
  have hle : r.toNat ≤ x.toNat := by_contra fun hgt => hr (by rw [State.loadRun_reg, if_neg hgt])
  simp [Instr.WritesReg, hle]

/-- A skip is an effect of the instructions that write the program counter. -/
theorem Effect.skipIf {s : State} {i : Instr} {b : Bool} (hi : i.WritesPc) : Effect s i (s.skipIf b) := by
  rw [State.skipIf_eq]
  refine .pc hi ?_
  cases b
  · exact .inl rfl
  · exact .inr (.inl rfl)

/-- A skip on the key of a register's value has an effect of the two instructions that skip so. -/
theorem Effect.of_key {s : State} {i : Instr} (k : Byte) (f : Bool → Bool) (hpc : i.WritesPc) (hfault : i.CanFault) :
    ∃ t, settle s ((s.key k).map fun pressed => s.skipIf (f pressed)) = .next t ∧ Effect s i t := by
  obtain ⟨-, hnext⟩ | ⟨-, hnext⟩ := settle_key_cases s k fun pressed => s.skipIf (f pressed)
  · exact ⟨_, hnext, .skipIf hpc⟩
  · exact ⟨_, hnext, .fault _ hfault⟩

/-- A transfer whose state is an effect of an instruction that can fault has an effect of that instruction. -/
theorem Effect.of_transfer {s t : State} {i : Instr} {len : Nat} (hi : i.CanFault)
    (hlen : 0 < len) (ht : s.index.toNat + len ≤ 4096 → Effect s i t) :
    ∃ u, transfer len t s = .next u ∧ Effect s i u := by
  obtain ⟨hin, hnext⟩ | ⟨-, hnext⟩ := transfer_cases len t s
  · exact ⟨_, hnext, ht (by omega)⟩
  · exact ⟨_, hnext, .fault _ hi⟩

/-- Every instruction answers a next state, and that state is one of its effects. -/
theorem exec_effect (i : Instr) (s : State) : ∃ t, exec i s = .next t ∧ Effect s i t := by
  cases i
  case nop => exact ⟨_, exec_nop s, .nothing⟩
  case cls => exact ⟨_, exec_cls s, .clear _⟩
  case ret =>
    obtain ⟨j, hj, hexec⟩ | ⟨-, hexec⟩ := exec_ret_cases s
    · exact ⟨_, hexec, .ret j hj⟩
    · exact ⟨_, hexec, .fault _ (.inl rfl)⟩
  case call nnn =>
    obtain ⟨h, hexec⟩ | ⟨-, hexec⟩ := exec_call_cases nnn s
    · exact ⟨_, hexec, .call nnn h⟩
    · exact ⟨_, hexec, .fault _ (.inr (.inl ⟨nnn, rfl⟩))⟩
  case jp nnn =>
    have hlt := nnn.isLt
    refine ⟨_, exec_jp nnn s, .pc (by simp [Instr.WritesPc]) (.inr (.inr (.inr ?_)))⟩
    rw [addrWord_toNat, pcLimit]
    omega
  case jpv0 nnn =>
    have hlt := nnn.isLt
    have hreg := (s.reg 0#4).isLt
    refine ⟨_, exec_jpv0 nnn s, .pc (by simp [Instr.WritesPc]) (.inr (.inr (.inr ?_)))⟩
    rw [jumpSum_toNat, pcLimit]
    omega
  case sei | snei | ser | sner => exact ⟨_, rfl, .skipIf (by simp [Instr.WritesPc])⟩
  case skp x => exact Effect.of_key (s.reg x) id (by simp [Instr.WritesPc]) (by simp [Instr.CanFault])
  case sknp x => exact Effect.of_key (s.reg x) not (by simp [Instr.WritesPc]) (by simp [Instr.CanFault])
  case wkey x =>
    cases hscan : s.lowestKey with
    | none => exact ⟨_, exec_wkey_of_none hscan, .pc (by simp [Instr.WritesPc]) (.inr (.inr (.inl rfl)))⟩
    | some k => exact ⟨_, exec_wkey_of_some hscan, .setReg (by simp [Instr.WritesReg])⟩
  case ldi | addi | mov | or | and | xor | getdt => exact ⟨_, rfl, .setReg (by simp [Instr.WritesReg])⟩
  case add | sub | subn =>
    exact ⟨_, rfl, .resultThenFlag (by simp [Instr.WritesReg]) (by simp [Instr.WritesReg])⟩
  case shr | shl => exact ⟨_, rfl, .flagThenShift (by simp [Instr.WritesReg]) (by simp [Instr.WritesReg])⟩
  case rnd x nn => exact ⟨_, exec_rnd x nn s, .random x nn _⟩
  case seti | addix | glyph => exact ⟨_, rfl, .index _ (by simp)⟩
  case setdt x => exact ⟨_, exec_setdt x s, .delay x _⟩
  case setst x => exact ⟨_, exec_setst x s, .sound x _⟩
  case drw x y n =>
    obtain ⟨-, hexec⟩ | ⟨-, hexec⟩ := execDrw_cases x y n s
    · exact ⟨_, hexec, .draw x y n _ _⟩
    · exact ⟨_, hexec, .fault _ (by simp [Instr.CanFault])⟩
  case bcd x => exact Effect.of_transfer (by simp [Instr.CanFault]) (Nat.succ_pos 2) fun h => .store ⟨x, .inl rfl⟩ h
  case stm x =>
    refine Effect.of_transfer (by simp [Instr.CanFault]) (Nat.succ_pos x.toNat) fun h => .store ⟨x, .inr rfl⟩ ?_
    rw [State.length_regRun]
    exact h
  case ldm x => exact Effect.of_transfer (by simp [Instr.CanFault]) (Nat.succ_pos x.toNat) fun _ => .loadRun

/-- The state an instruction answers is one of its effects. -/
theorem effect_of_exec {i : Instr} {s t : State} (h : exec i s = .next t) : Effect s i t := by
  obtain ⟨u, hexec, heffect⟩ := exec_effect i s
  obtain rfl : u = t := next_unique hexec h
  exact heffect

/-- The registers an effect changes are those its instruction writes. -/
theorem Effect.writesReg {i : Instr} {s t : State} (h : Effect s i t) {r : Nibble} (hr : t.reg r ≠ s.reg r) :
    i.WritesReg r := by
  cases h
  case regs _ hi => exact hi r hr
  case random x nn v =>
    obtain rfl : r = x := by_contra fun hne => hr (by rw [State.countDraw_reg, State.setReg_reg, if_neg hne])
    simp [Instr.WritesReg]
  case draw =>
    obtain rfl : r = 0xF#4 := by_contra fun hne => hr (by rw [State.setFlag_reg, if_neg hne, State.setFb_reg])
    simp [Instr.WritesReg]
  all_goals exact absurd rfl hr

/-- An effect leaves the keys and `last` as they were, and changes every other item only as R34 lists its writers. -/
theorem Effect.writers {i : Instr} {s t : State} (h : Effect s i t) :
    t.keys = s.keys ∧ t.last = s.last ∧ (t.pc ≠ s.pc → i.WritesPc) ∧ (t.dt ≠ s.dt → ∃ x, i = .setdt x) ∧
    (t.st ≠ s.st → ∃ x, i = .setst x) ∧
    (t.index ≠ s.index → (∃ nnn, i = .seti nnn) ∨ ∃ x, i = .addix x ∨ i = .glyph x) ∧
    (t.fb ≠ s.fb → i = .cls ∨ ∃ x y n, i = .drw x y n) ∧
    (t.sp ≠ s.sp → i = .ret ∨ ∃ nnn, i = .call nnn) ∧
    (t.stack ≠ s.stack → ∃ nnn, i = .call nnn) ∧
    (t.mem ≠ s.mem → ∃ x, i = .bcd x ∨ i = .stm x) ∧
    (t.fault ≠ s.fault → i.CanFault) ∧ (t.draws ≠ s.draws → ∃ x nn, i = .rnd x nn) := by
  cases h
  case regs ht _ => rw [ht]; simp
  case fault hi => simp [hi]
  case pc hi => simp [hi]
  case index hi => simp [hi]
  case store hi => simp [hi]
  case call => simp [State.called, Instr.WritesPc]
  case ret => simp [State.returned, Instr.WritesPc]
  all_goals simp

/-- Settles O45: every item's clause is read off the instruction's effect. -/
theorem eachItemHasItsWriters : Obligations.EachItemHasItsWriters := by
  intro i s t hexec
  have heffect := effect_of_exec hexec
  obtain ⟨hkeys, hlast, hpc, hdt, hst, hindex, hfb, hsp, hstack, hmem, hfault, hdraws⟩ := heffect.writers
  exact ⟨hkeys, hlast, fun r => heffect.writesReg, hpc, hdt, hst, hindex, hfb, hsp, hstack,
    fun ⟨_, hread⟩ => hmem fun h => hread (by rw [h]), hfault, hdraws⟩

/-- Settles O44: the writers of a register, read at register 0xF. -/
theorem onlySixInstructionsWriteTheFlag : Obligations.OnlySixInstructionsWriteTheFlag := by
  intro i s t hexec hne
  obtain himm | hcopy | ⟨x, y, -, harith⟩ | ⟨-, hdraw⟩ | hgetdt | hwkey | ⟨x, hx, hldm⟩ := (effect_of_exec hexec).writesReg hne
  · exact .inr (.inr (.inl himm))
  · exact .inr (.inr (.inr (.inl hcopy)))
  · exact .inl ⟨x, y, harith⟩
  · exact .inr (.inl hdraw)
  · exact .inr (.inr (.inr (.inr (.inl hgetdt))))
  · exact .inr (.inr (.inr (.inr (.inr (.inl hwkey)))))
  · obtain rfl : x = 0xF#4 := BitVec.eq_of_toNat_eq (Nat.le_antisymm (Nat.le_of_lt_succ x.isLt) hx)
    exact .inr (.inr (.inr (.inr (.inr (.inr hldm)))))

/-! Faults. -/

/-- An instruction that leaves a fault in a running core has latched the one its rule names, and changed nothing else (R236,
R237). -/
theorem exec_fault_cases {i : Instr} {s t : State} (hrun : s.running) (hexec : exec i s = .next t) (hne : t.fault ≠ none) :
    ∃ f, t = s.latch f ∧
      (((∃ nnn, i = .call nnn) ∧ f = .stackFault .overflow ∧ s.sp.val = 16) ∨
        (i = .ret ∧ f = .stackFault .underflow ∧ s.sp.val = 0) ∨
        (((∃ x y n, i = .drw x y n) ∨ (∃ x, i = .bcd x ∨ i = .stm x ∨ i = .ldm x)) ∧
          f = .memoryFault (max s.index.toNat 4096)) ∨
        (∃ x, (i = .skp x ∨ i = .sknp x) ∧ f = .keyIndexFault (s.reg x) ∧ 16 ≤ (s.reg x).toNat)) := by
  obtain ⟨u, hu, hcases⟩ := exec_latch i s
  obtain rfl : u = t := next_unique hu hexec
  exact hcases.resolve_left fun hsame => hne (hsame.trans hrun)

/-- Settles O42: a fault comes from `State.latch` on the state the fetch left. -/
theorem faultingInstructionWritesNothing : Obligations.FaultingInstructionWritesNothing := by
  intro i s t hrun hexec hne
  obtain ⟨f, rfl, -⟩ := exec_fault_cases hrun hexec hne
  rfl

/-- Settles O43: the latch of a running core was empty, so the fault is the one its instruction latched. -/
theorem eachInstructionHasItsFault : Obligations.EachInstructionHasItsFault := by
  intro i s t f hrun hexec hf
  obtain ⟨g, rfl, hcases⟩ := exec_fault_cases hrun hexec (by simp [hf])
  obtain rfl : g = f := Option.some.inj hf
  obtain ⟨hi, hg, -⟩ | ⟨hi, hg, -⟩ | hmemory | ⟨x, hi, hg, -⟩ := hcases
  · exact .inl ⟨hi, hg⟩
  · exact .inr (.inl ⟨hi, hg⟩)
  · exact .inr (.inr (.inl hmemory))
  · exact .inr (.inr (.inr ⟨x, hi, hg⟩))

/-! The items nothing reads. -/

/-- Settles O46: the fetch overwrites `last` before anything could read it, and a step without a fetch hands it on. -/
theorem lastHasNoEffect : Obligations.LastHasNoEffect := by
  intro s t w hstep
  by_cases hrun : s.running
  · by_cases hpc : s.pc.toNat + 1 < 4096
    · have hfetch : step { s with last := w } = step s := by
        have hhalt := State.halted_eq_false_iff.2 hrun
        have hhalt' : ({ s with last := w } : State).halted = false := hhalt
        simp only [step, tick, hhalt, hhalt', s.fetch_inside hpc, State.fetch_inside { s with last := w } hpc]
        rfl
      exact ⟨t, hfetch.trans hstep, rfl⟩
    · have hpc' : 4096 ≤ s.pc.toNat + 1 := Nat.le_of_not_lt hpc
      refine ⟨_, step_of_fetch_outside (s := { s with last := w }) hrun hpc', ?_⟩
      obtain rfl := next_unique (step_of_fetch_outside hrun hpc') hstep
      rfl
  · refine ⟨_, step_of_not_running (s := { s with last := w }) hrun, ?_⟩
    obtain rfl := next_unique (step_of_not_running hrun) hstep
    rfl

/-- A skip does not read the sound timer. -/
theorem State.skipIf_setSound (s : State) (v : Byte) (b : Bool) : (s.setSound v).skipIf b = (s.skipIf b).setSound v := by
  cases b <;> rfl

/-- A skip on a key does not read the sound timer either. -/
theorem settle_key_setSound (k : Byte) (f : Bool → Bool) (s : State) (v : Byte) :
    ∃ t, settle s ((s.key k).map fun pressed => s.skipIf (f pressed)) = .next t ∧
      settle (s.setSound v) (((s.setSound v).key k).map fun pressed => (s.setSound v).skipIf (f pressed)) =
        .next (t.setSound v) := by
  obtain ⟨hlt, hnext⟩ | ⟨hge, hnext⟩ := settle_key_cases s k fun pressed => s.skipIf (f pressed)
  · refine ⟨_, hnext, ?_⟩
    rw [settle_key_of_lt _ hlt, State.skipIf_setSound]
    rfl
  · exact ⟨_, hnext, settle_key_of_ge _ hge⟩

/-- A transfer reads I alone of the state whose fault it may take, so with another sound timer it answers the same but for
that timer. -/
theorem transfer_setSound (len : Nat) (t s : State) (v : Byte) :
    ∃ u, transfer len t s = .next u ∧ transfer len (t.setSound v) (s.setSound v) = .next (u.setSound v) := by
  simp only [transfer, State.setSound_index]
  cases rangeFault (effAddr s.index 0) len with
  | none => exact ⟨_, rfl, rfl⟩
  | some f => exact ⟨_, rfl, rfl⟩

/-- With another sound timer an instruction other than SETST answers the same but for that timer. -/
theorem exec_setSound {i : Instr} (hi : ∀ x, i ≠ .setst x) (s : State) (v : Byte) :
    ∃ t, exec i s = .next t ∧ exec i (s.setSound v) = .next (t.setSound v) := by
  cases i
  case setst x => exact absurd rfl (hi x)
  case ret =>
    obtain ⟨j, hj, hexec⟩ | ⟨hempty, hexec⟩ := exec_ret_cases s
    · exact ⟨_, hexec, exec_ret_of_entry (s := s.setSound v) hj⟩
    · exact ⟨_, hexec, stackEndsFault.2 (s.setSound v) hempty⟩
  case call nnn =>
    obtain ⟨h, hexec⟩ | ⟨hfull, hexec⟩ := exec_call_cases nnn s
    · exact ⟨_, hexec, exec_call_of_room nnn (s := s.setSound v) h⟩
    · exact ⟨_, hexec, stackEndsFault.1 nnn (s.setSound v) hfull⟩
  case sei | snei | ser | sner => exact ⟨_, rfl, congrArg Host.Outcome.next (s.skipIf_setSound v _)⟩
  case skp x => exact settle_key_setSound (s.reg x) id s v
  case sknp x => exact settle_key_setSound (s.reg x) not s v
  case wkey x =>
    cases hscan : s.lowestKey with
    | none => exact ⟨_, exec_wkey_of_none hscan, exec_wkey_of_none (s := s.setSound v) hscan⟩
    | some k => exact ⟨_, exec_wkey_of_some hscan, exec_wkey_of_some (s := s.setSound v) hscan⟩
  case drw x y n =>
    obtain ⟨hin, hexec⟩ | ⟨⟨hn, hout⟩, hexec⟩ := execDrw_cases x y n s
    · exact ⟨_, hexec, exec_drw_of_inside (s := s.setSound v) hin.symm⟩
    · exact ⟨_, hexec, exec_drw_of_beyond (s := s.setSound v) hn hout⟩
  case bcd | stm | ldm => exact transfer_setSound _ _ s v
  all_goals exact ⟨_, rfl, rfl⟩

/-- Settles O47: SETST overwrites the timer, and every other instruction hands it on. -/
theorem soundTimerIsNeverRead : Obligations.SoundTimerIsNeverRead := by
  intro i s t v hexec
  by_cases hi : ∃ x, i = .setst x
  · obtain ⟨x, rfl⟩ := hi
    obtain rfl := Host.Outcome.next.inj hexec
    exact ⟨_, exec_setst x (s.setSound v), rfl⟩
  · obtain ⟨u, hu, hother⟩ := exec_setSound (fun x h => hi ⟨x, h⟩) s v
    obtain rfl : u = t := next_unique hu hexec
    exact ⟨_, hother, rfl⟩

end Machine
end Sys2Proof
end

section
/-! The invariants of the machine (spec/10_state.md R23, R26, spec/60_exceptions.md R230 to R236): each is kept by every step. -/

namespace Sys2Proof.Machine

/-- Settles O52: nothing is listed, nothing is pushed and nothing is latched. -/
theorem resetMeetsInvariants : Obligations.ResetMeetsInvariants :=
  ⟨by decide, ⟨by decide, by decide⟩, trivial⟩

/-- What one step does, with the instruction's part said by its effect. -/
theorem step_effect {s t : State} (hstep : step s = .next t) :
    t = s ∨ (s.running ∧ 4096 ≤ s.pc.toNat + 1 ∧ t = s.latch (.memoryFault (max s.pc.toNat 4096))) ∨
    (s.running ∧ s.pc.toNat + 1 < 4096 ∧ decode (s.wordAt s.pc.toNat) = none ∧
      t = (s.fetched (s.wordAt s.pc.toNat)).latch (.decodeError (s.wordAt s.pc.toNat))) ∨
    ∃ i, s.running ∧ s.pc.toNat + 1 < 4096 ∧ exec i (s.fetched (s.wordAt s.pc.toNat)) = .next t := by
  simp only [← State.halted_eq_false_iff]
  obtain ⟨-, hnext⟩ | ⟨hrun, hpc, hnext⟩ | ⟨hrun, hpc, hdec, hnext⟩ | ⟨i, hrun, hpc, -, hnext⟩ := step_cases s
  · exact .inl (next_unique hstep hnext)
  · exact .inr (.inl ⟨hrun, hpc, next_unique hstep hnext⟩)
  · exact .inr (.inr (.inl ⟨hrun, hpc, hdec, next_unique hstep hnext⟩))
  · exact .inr (.inr (.inr ⟨i, hrun, hpc, hnext.symm.trans hstep⟩))

/-! The canonical form of memory. -/

/-- An effect writes memory inside its 4096 bytes only, so it keeps the canonical form. -/
theorem Effect.mem_wf {i : Instr} {s t : State} (h : Effect s i t) (hwf : s.mem.wf = true) : t.mem.wf = true := by
  cases h
  case store ha _ => exact Memory.writeBytes_wf _ hwf ha
  case regs ht _ =>
    rw [ht]
    exact hwf
  all_goals exact hwf

/-- Settles O49: only an executed instruction writes memory. -/
theorem stepKeepsMemoryCanonical : Obligations.StepKeepsMemoryCanonical := by
  intro s t hwf hstep
  obtain rfl | ⟨-, -, rfl⟩ | ⟨-, -, -, rfl⟩ | ⟨i, -, -, hexec⟩ := step_effect hstep
  · exact hwf
  · exact hwf
  · exact hwf
  · exact (effect_of_exec hexec).mem_wf hwf

/-! The bound of the program counter. -/

/-- A fetch inside memory advances the program counter by 2 without wrap. -/
theorem State.fetched_pc_toNat {s : State} (w : Word) (hpc : s.pc.toNat + 1 < 4096) :
    (s.fetched w).pc.toNat = s.pc.toNat + 2 := by
  rw [State.fetched_pc, BitVec.toNat_add]
  exact Nat.mod_eq_of_lt (show s.pc.toNat + 2 < 65536 by omega)

/-- The program counter that an effect leaves is bounded, where the fetch left one of at least 2 and at most 0x1000: a skip
adds 2, WKEY takes 2 back, CALL pushes it. -/
theorem Effect.pcBounded {i : Instr} {s t : State} (h : Effect s i t) (hlow : 2 ≤ s.pc.toNat) (hhigh : s.pc.toNat ≤ 0x1000)
    (hstack : ∀ j : Fin 16, j.val < s.sp.val → s.stack[j].toNat ≤ Config.memSize) : t.pcBounded := by
  have hpc : s.pc.toNat ≤ pcLimit := hhigh.trans (by decide)
  cases h
  case regs ht _ =>
    rw [ht]
    exact ⟨hpc, hstack⟩
  case pc hv _ =>
    refine ⟨?_, hstack⟩
    obtain rfl | rfl | rfl | hle := hv
    · exact hpc
    · rw [State.setPc_pc, pcLimit]
      bv_omega
    · rw [State.setPc_pc, pcLimit]
      bv_omega
    · exact hle
  case call nnn hsp =>
    have hlt := nnn.isLt
    refine ⟨?_, fun j hj => ?_⟩
    · simp only [State.called, addrWord_toNat, pcLimit]
      omega
    · rw [State.called_stack_get]
      split
      · exact hhigh
      · exact hstack j (by simp only [State.called] at hj; omega)
  case ret j hj =>
    refine ⟨(hstack j (by omega)).trans (by decide), fun k hk => hstack k ?_⟩
    simp only [State.returned, Fin.val_castSucc] at hk
    omega
  all_goals exact ⟨hpc, hstack⟩

/-- Settles O50: after the fetch of a word in memory the program counter lies between 2 and 0x1000. -/
theorem stepKeepsPcBounded : Obligations.StepKeepsPcBounded := by
  rintro s t ⟨hpc, hstack⟩ hstep
  obtain rfl | ⟨-, -, rfl⟩ | ⟨-, hin, -, rfl⟩ | ⟨i, -, hin, hexec⟩ := step_effect hstep
  · exact ⟨hpc, hstack⟩
  · exact ⟨hpc, hstack⟩
  · refine ⟨?_, hstack⟩
    rw [State.latch_pc, State.fetched_pc_toNat _ hin, pcLimit]
    omega
  · have hfetched := State.fetched_pc_toNat (s.wordAt s.pc.toNat) hin
    exact (effect_of_exec hexec).pcBounded (by omega) (by omega) hstack

/-! The latched fault. -/

/-- A running core's latch is sound. -/
theorem State.faultSound_of_running {s : State} (h : s.running) : s.faultSound := by
  rw [State.faultSound, show s.fault = none from h]
  trivial

/-- A MemoryFault of max(a, 4096), for a 16-bit address, is sound. -/
theorem State.latch_memoryFault_sound (s : State) (a : Word) : (s.latch (.memoryFault (max a.toNat 4096))).faultSound :=
  ⟨Nat.le_max_right _ _, Nat.max_lt.2 ⟨a.isLt, by decide⟩⟩

/-- Settles O51: a halted core keeps its latch, the fetch and the decoder latch what they met, and a running core's instruction
leaves its latch empty or latches the fault its rule names. -/
theorem stepKeepsFaultSound : Obligations.StepKeepsFaultSound := by
  intro s t hsound hstep
  obtain rfl | ⟨-, -, rfl⟩ | ⟨-, -, hdec, rfl⟩ | ⟨i, hrun, -, hexec⟩ := step_effect hstep
  · exact hsound
  · exact s.latch_memoryFault_sound s.pc
  · exact ⟨hdec, rfl⟩
  · by_cases hnone : t.fault = none
    · exact State.faultSound_of_running hnone
    obtain ⟨f, rfl, hcases⟩ := exec_fault_cases (s := s.fetched _) hrun hexec hnone
    obtain ⟨-, rfl, hfull⟩ | ⟨-, rfl, hempty⟩ | ⟨-, rfl⟩ | ⟨x, -, rfl, hkey⟩ := hcases
    · exact hfull
    · exact hempty
    · exact State.latch_memoryFault_sound _ _
    · exact hkey

/-- Every step keeps the three invariants. -/
theorem step_keeps_inv {s t : State} (h : s.Inv) (hstep : step s = .next t) : t.Inv := by
  obtain ⟨hmem, hpc, hfault⟩ := h
  exact ⟨stepKeepsMemoryCanonical s t hmem hstep, stepKeepsPcBounded s t hpc hstep, stepKeepsFaultSound s t hfault hstep⟩

end Sys2Proof.Machine
end

section
/-! The host's commands (spec/45_host_commands.md): what each answers, and lists of them. -/

namespace Sys2Proof.Machine

/-- Every step answers a next state (R213, R241). -/
theorem step_total (s : State) : ∃ t, step s = .next t := by
  obtain ⟨-, hnext⟩ | ⟨-, -, hnext⟩ | ⟨-, -, -, hnext⟩ | ⟨i, -, -, -, hnext⟩ := step_cases s
  · exact ⟨_, hnext⟩
  · exact ⟨_, hnext⟩
  · exact ⟨_, hnext⟩
  · obtain ⟨t, hexec, -⟩ := exec_latch i (s.fetched (s.wordAt s.pc.toNat))
    exact ⟨t, hnext.trans hexec⟩

/-- TICK gives the step's state and the response for it (R215). -/
theorem command_tick {s t : State} (h : step s = .next t) : command .tick s = .next (t, tickResponse s t) := by
  simp only [command, h]

/-- A core that was halted answers `halted` (R222). -/
theorem tickResponse_of_not_running {s : State} (t : State) (h : ¬ s.running) : tickResponse s t = .halted := by
  rw [tickResponse, if_pos (State.halted_of_not_running h)]

/-- A core that ran and has no fault latched answers `ok` (R215). -/
theorem tickResponse_of_fault_eq_none {s t : State} (hrun : s.running) (h : t.fault = none) : tickResponse s t = .ok := by
  simp [tickResponse, State.halted_eq_false_iff.2 hrun, h]

/-- A core that ran and has a fault latched answers the fault (R215). -/
theorem tickResponse_of_fault_eq_some {s t : State} {f : Fault} (hrun : s.running) (h : t.fault = some f) :
    tickResponse s t = .fault f := by
  simp [tickResponse, State.halted_eq_false_iff.2 hrun, h]

/-- Settles O41: a step always answers, and the response is read off the latch before and after it. -/
theorem everyTickCompletes : Obligations.EveryTickCompletes := by
  intro s
  obtain ⟨t, hstep⟩ := step_total s
  refine ⟨t, hstep, fun hhalt => ?_, fun hrun hnone => ?_, fun f hrun hfault => ?_⟩
  · rw [command_tick hstep, tickResponse_of_not_running t hhalt]
  · rw [command_tick hstep, tickResponse_of_fault_eq_none hrun hnone]
  · rw [command_tick hstep, tickResponse_of_fault_eq_some hrun hfault]

/-- A list of commands goes on from the state its first command answers. -/
theorem runCommands_cons {c : Command} {s t : State} {r : Response} (cs : List Command) (h : command c s = .next (t, r)) :
    runCommands (c :: cs) s = runCommands cs t := by
  simp only [runCommands, h]

/-- Every command keeps the invariants (R210, R223). -/
theorem command_keeps_inv (c : Command) {s : State} (h : s.Inv) : ∃ t r, command c s = .next (t, r) ∧ t.Inv := by
  cases c with
  | reset => exact ⟨_, _, rfl, resetMeetsInvariants⟩
  | tick =>
    obtain ⟨t, hstep⟩ := step_total s
    exact ⟨t, _, command_tick hstep, step_keeps_inv h hstep⟩
  | load bytes =>
    refine ⟨(s.afterLoad bytes).1, (s.afterLoad bytes).2, rfl, ?_⟩
    unfold State.afterLoad
    split_ifs with hhalt hfits
    · exact h
    · obtain ⟨hmem, hpc, hfault⟩ := h
      exact ⟨Memory.writeBytes_wf bytes hmem (of_decide_eq_true hfits), hpc, hfault⟩
    · exact h
  | tickTimers =>
    refine ⟨_, _, rfl, ?_⟩
    unfold State.afterTimers
    split_ifs <;> exact h
  | setKey k pressed =>
    refine ⟨_, _, rfl, ?_⟩
    unfold State.afterSetKey
    split_ifs <;> exact h
  | getPixel x y => exact ⟨_, _, rfl, h⟩

/-- Every list of commands completes and keeps the invariants. -/
theorem runCommands_keeps_inv (cs : List Command) : ∀ {s : State}, s.Inv → ∃ t, runCommands cs s = .next t ∧ t.Inv := by
  induction cs with
  | nil => exact fun h => ⟨_, rfl, h⟩
  | cons c cs ih =>
    intro s h
    obtain ⟨t, r, hcommand, ht⟩ := command_keeps_inv c h
    rw [runCommands_cons cs hcommand]
    exact ih ht

/-- Settles O53: the invariants hold at reset, and every command keeps them. -/
theorem commandsKeepInvariants : Obligations.CommandsKeepInvariants :=
  ⟨fun c _ h => command_keeps_inv c h, fun cs => runCommands_keeps_inv cs resetMeetsInvariants⟩

/-! TICK over zero bytes. -/

/-- A running core at two zero bytes only fetches them (R100, R120). -/
theorem step_of_zero_bytes {s : State} (hrun : s.running) (hpc : s.pc.toNat + 1 < 4096) (hhigh : s.mem.read s.pc.toNat = 0)
    (hlow : s.mem.read (s.pc.toNat + 1) = 0) : step s = .next (s.fetched 0x0000#16) := by
  have hword : s.wordAt s.pc.toNat = 0x0000#16 := by
    rw [State.wordAt, hhigh, hlow]
    rfl
  exact nopOnlyFetches.2.2.2 s hrun hpc hword

/-- Settles O9, by induction on the number of ticks. -/
theorem zeroBytesRunAsNops : Obligations.ZeroBytesRunAsNops := by
  intro k
  induction k with
  | zero => exact fun s _ _ _ => ⟨s, rfl, rfl, rfl⟩
  | succ k ih =>
    intro s hrun hpc hzero
    have hin : s.pc.toNat + 1 < 4096 := by omega
    have hstep : step s = .next (s.fetched 0x0000#16) :=
      step_of_zero_bytes hrun hin (hzero _ (by omega) (by omega)) (hzero _ (by omega) (by omega))
    have hfetched := State.fetched_pc_toNat (0x0000#16) hin
    obtain ⟨t, hticks, htpc, hframe⟩ :=
      ih (s.fetched 0x0000#16) hrun (by omega) fun a hlo hhi => hzero a (by omega) (by omega)
    refine ⟨t, ?_, by omega, hframe⟩
    rw [List.replicate_succ, runCommands_cons _ (command_tick hstep), hticks]

/-! RESET. -/

/-- Reset memory reads as FONT at 0 to 79 and as 0 elsewhere (R33). -/
theorem read_reset_mem (a : Nat) : State.reset.mem.read a = if a < 80 then fontTable.getD a 0 else 0 := by
  show fontTable.getD a 0 = _
  split_ifs with h
  · rfl
  · rw [List.getD_eq_default]
    exact Nat.le_of_not_lt h

/-- Settles O54: RESET takes the reset state from any state, keeping the count of draws alone. -/
theorem resetLeavesTheResetState : Obligations.ResetLeavesTheResetState := fun s =>
  ⟨s.afterReset, rfl, fun r => by simp [State.afterReset, State.reset, State.reg], rfl, rfl,
    fun j => by simp [State.afterReset, State.reset], rfl, rfl, rfl, read_reset_mem,
    fun v u => Framebuffer.get_blank v u, fun k => by simp [State.afterReset, State.reset], rfl, rfl, rfl, rfl, rfl⟩

/-! LOAD. -/

/-- LOAD into a running core of bytes that fit (R212). -/
theorem command_load_of_fits {s : State} {bytes : List Byte} (hrun : s.running) (h : 0x200 + bytes.length ≤ 4096) :
    command (.load bytes) s = .next (s.store 0x200 bytes, .ok) := by
  have hfits : loadFits bytes.length = true := decide_eq_true h
  simp [command, State.afterLoad, State.halted_eq_false_iff.2 hrun, hfits, Config.loadAddr]

/-- Settles O55: LOAD is one store at 0x200. -/
theorem loadRoundTrip : Obligations.LoadRoundTrip := fun _ s hrun h =>
  ⟨_, command_load_of_fits hrun h, fun _ hk => s.store_read_inside (List.getElem?_eq_getElem hk),
    fun _ ha => s.store_read_outside ha, s.store_frame _ _⟩

/-- Settles O56: the size is checked before the first byte is written. -/
theorem loadTooLargeChangesNothing : Obligations.LoadTooLargeChangesNothing := by
  intro bytes s hrun h
  have hfits : loadFits bytes.length = false := decide_eq_false (Nat.not_le_of_gt h)
  simp [command, State.afterLoad, State.halted_eq_false_iff.2 hrun, hfits]

/-! TICK_TIMERS, SET_KEY and GET_PIXEL. -/

/-- A timer step lowers a timer by one and stops at 0 (R216). -/
theorem countDown_toNat (v : Byte) : (countDown v).toNat = v.toNat - 1 := by
  have hv := v.isLt
  rw [countDown, BitVec.toNat_ofNat]
  exact Nat.mod_eq_of_lt (by omega)

/-- TICK_TIMERS on a running core (R216). -/
theorem command_tickTimers_of_running {s : State} (hrun : s.running) :
    command .tickTimers s = .next ((s.setDelay (countDown s.dt)).setSound (countDown s.st), .none) := by
  simp [command, State.afterTimers, State.halted_eq_false_iff.2 hrun]

/-- Settles O57, by induction on the number of timer steps. -/
theorem timerStepsCountDownToZero : Obligations.TimerStepsCountDownToZero := by
  intro k
  induction k with
  | zero => exact fun s _ => ⟨s, rfl, rfl, rfl, rfl⟩
  | succ k ih =>
    intro s hrun
    obtain ⟨t, hsteps, hdt, hst, hframe⟩ := ih ((s.setDelay (countDown s.dt)).setSound (countDown s.st)) hrun
    refine ⟨t, ?_, ?_, ?_, hframe⟩
    · rw [List.replicate_succ, runCommands_cons _ (command_tickTimers_of_running hrun), hsteps]
    · rw [hdt, State.setSound_dt, State.setDelay_dt, countDown_toNat]
      omega
    · rw [hst, State.setSound_st, countDown_toNat]
      omega

/-- SET_KEY on a running core (R218). -/
theorem command_setKey_of_running {s : State} (k : Nibble) (b : Bool) (hrun : s.running) :
    command (.setKey k b) s = .next (s.setKey k b, .none) := by
  simp [command, State.afterSetKey, State.halted_eq_false_iff.2 hrun]

/-- Settles O58: SET_KEY is one key write. -/
theorem setKeyWritesOneKey : Obligations.SetKeyWritesOneKey := by
  refine fun k b s hrun => ⟨_, command_setKey_of_running k b hrun, fun j => ?_, rfl⟩
  rw [← State.keyDown_toNat, ← State.keyDown_toNat, State.setKey_keyDown]

/-- Settles O59: the answer is the cell of the framebuffer itself. -/
theorem getPixelAnswersTheCell : Obligations.GetPixelAnswersTheCell := fun _ _ _ => rfl

/-! A halted core. -/

/-- A halted core ignores LOAD (R222). -/
theorem command_load_of_not_running {s : State} (bytes : List Byte) (h : ¬ s.running) :
    command (.load bytes) s = .next (s, .halted) := by
  simp [command, State.afterLoad, State.halted_of_not_running h]

/-- Only RESET changes a halted core (R222, R242). -/
theorem command_of_not_running {s : State} {c : Command} (h : ¬ s.running) (hc : c ≠ .reset) :
    ∃ r, command c s = .next (s, r) := by
  have hhalt := State.halted_of_not_running h
  cases c with
  | reset => exact absurd rfl hc
  | load bytes => exact ⟨_, command_load_of_not_running bytes h⟩
  | tick => exact ⟨_, command_tick (step_of_not_running h)⟩
  | tickTimers => exact ⟨.none, by simp [command, State.afterTimers, hhalt]⟩
  | setKey k b => exact ⟨.none, by simp [command, State.afterSetKey, hhalt]⟩
  | getPixel x y => exact ⟨_, rfl⟩

/-- Settles O60, the list of commands by induction. -/
theorem haltedCoreChangesNothing : Obligations.HaltedCoreChangesNothing := by
  intro s h
  have hstep : step s = .next s := step_of_not_running h
  refine ⟨fun cs hcs => ?_, hstep, ?_, fun bytes => command_load_of_not_running bytes h⟩
  · induction cs with
    | nil => rfl
    | cons c cs ih =>
      obtain ⟨hc, hcs⟩ := not_or.1 (mt List.mem_cons.2 hcs)
      obtain ⟨r, hcommand⟩ := command_of_not_running h (Ne.symm hc)
      rw [runCommands_cons cs hcommand, ih hcs]
  · rw [command_tick hstep, tickResponse_of_not_running s h]

end Sys2Proof.Machine
end
